-- ==== Sys2Proof/Word.lean ====
section
/-! DEFINITION. The words on the ports: the two number formats of 00_scope R3 and R7, and the class vector of 30_encoding R70. -/

namespace Sys2Proof

/-- A binary16 pattern, bit 0 least significant (00_scope R7, R13; every value is legal, 30_encoding R64). -/
abbrev Half := BitVec 16

/-- A binary32 pattern, bit 0 least significant (00_scope R7, R13; every value is legal, 30_encoding R65). -/
abbrev Single := BitVec 32

/-- The packed class vector c[5:0] (30_encoding R70). -/
abbrev ClassVec := BitVec 6

/-- One byte of the host's memory image (20_memory R41); the block itself has no bytes. -/
abbrev Byte := BitVec 8

end Sys2Proof
end

