-- ==== Sys2Proof/Config.lean ====
section
/-! DEFINITION. What an implementation fixes: the NaN maps (00_scope R10, R11; fixed by the implementation and never
set at run time, 70_reset R231) and the host's byte order (00_scope R12). -/

namespace Sys2Proof

/-- The shape of `ENC_NAN_MAP` (00_scope R10): sign and mantissa of a binary32 NaN to a binary16 pattern. -/
abbrev EncNanFun := BitVec 1 → BitVec 23 → Half

/-- The shape of `DEC_NAN_MAP` (00_scope R11): sign and mantissa of a binary16 NaN to a binary32 pattern. -/
abbrev DecNanFun := BitVec 1 → BitVec 10 → Single

/-- Which `ENC_NAN_MAP` an implementation has. Plain data, so that a state can name it. -/
inductive EncNanMap where
  /-- The spec's default (40_encode R103; 92 D4). -/
  | specDefault
  /-- Always 0x7E00, a map of 95_test_vectors 2.5 that keeps no sign. -/
  | canonical
  /-- An implementation's own map: a free value within NAN-E1 (log entry 4). -/
  | own
  deriving DecidableEq, Repr

/-- Which `DEC_NAN_MAP` an implementation has. Plain data, so that a state can name it. -/
inductive DecNanMap where
  /-- The spec's default (41_decode R146). -/
  | specDefault
  /-- The default with bit 22 set, a map of 95_test_vectors 2.5 that quietens. -/
  | forcedQuiet
  /-- An implementation's own map: a free value within NAN-D1 (log entry 4). -/
  | own
  deriving DecidableEq, Repr

/-- FREE VALUE, DESIGN CHOICE of form (log entry 4), safe: what an implementation's own `ENC_NAN_MAP` chooses; it has no body, and
`toNan16` keeps it within NAN-E1 (40_encode R104). -/
opaque Config.encNanOwn : BitVec 1 → BitVec 23 → Half

/-- FREE VALUE, DESIGN CHOICE of form (log entry 4), safe: what an implementation's own `DEC_NAN_MAP` chooses; it has no body, and
`toNan32` keeps it within NAN-D1 (41_decode R147). -/
opaque Config.decNanOwn : BitVec 1 → BitVec 10 → Single

/-- The two values of `HOST_BYTE_ORDER` (00_scope R12), OPEN and outside the block: a function about bytes takes it
as an argument (92 D12): DESIGN CHOICE (log entry 8), safe. -/
inductive ByteOrder where
  | little | big
  deriving DecidableEq, Repr

end Sys2Proof
end

