-- ==== Sys2Proof/Syntax.lean ====
section
/-! DEFINITION. The operations of the block (30_encoding R67), and the straight-line programs a user runs on it
(30_encoding R73 to R75). -/

namespace Sys2Proof

/-- One evaluation request `(op, operand)` (30_encoding R67): one constructor per row of the opcode table. -/
inductive Instr where
  /-- op 0b00, the fp_half_encoder unit on a binary32 pattern (40_encode R100). -/
  | encode (f : Single)
  /-- op 0b01, the fp_half_decoder unit on a binary16 pattern (41_decode R140). -/
  | decode (h : Half)
  /-- op 0b10, the fp_classifier unit on a binary16 pattern (42_classify R170). -/
  | classify (h : Half)
  deriving DecidableEq, Repr

/-- The label of a program line (30_encoding R73). -/
inductive Label where
  /-- `%<n>`. -/
  | line (n : Nat)
  /-- The `%m` that ROUNDTRIP16 uses for its first half (30_encoding R74); the spec does not number it.
  DESIGN CHOICE (log entry 6): it stands just before `%<n>` and can be written by no user. -/
  | temp (n : Nat)
  deriving DecidableEq, Repr

/-- The place of a label in the order "increasing" of 30_encoding R73. -/
def Label.key : Label → Nat
  | .line n => 2 * n + 1
  | .temp n => 2 * n

/-- An operand of a program line: a literal of the operand's width, or the result of an earlier line (30_encoding R73). -/
inductive Operand (w : Nat) where
  | lit (v : BitVec w)
  | ref (k : Label)
  deriving DecidableEq, Repr

/-- The source's predicates and `isNormal`, the pseudo-operations that select one bit of CLASSIFY (30_encoding R74). -/
inductive Predicate where
  | isZero | isDenormalized | isNormal | isInfinite | isNaN | isNegativeZero
  deriving DecidableEq, Repr

/-- What one line asks for. -/
inductive LineOp where
  /-- A raw request: the op and the operand as bits, most significant first (30_encoding R68). -/
  | request (bits : List Bool)
  | encode (x : Operand 32)
  | decode (x : Operand 16)
  | classify (x : Operand 16)
  /-- One CLASSIFY and the selection of one result bit (30_encoding R74). -/
  | predicate (p : Predicate) (x : Operand 16)
  deriving DecidableEq, Repr

/-- One line of a program: `%<n> = <MNEMONIC> <operand>` (30_encoding R73). -/
structure Line where
  label : Label
  op : LineOp
  deriving DecidableEq, Repr

/-- A line as the user writes it: a line, or the one pseudo-operation that is two lines (30_encoding R74). -/
inductive Stmt where
  | line (l : Line)
  | roundtrip16 (n : Nat) (x : Operand 16)
  deriving DecidableEq, Repr

/-- The kinds of result a line can have: its operation's (30_encoding R67), or one bit of it (R74). -/
inductive Kind where
  /-- A 16-bit binary16 pattern, from ENCODE. -/
  | half
  /-- A 32-bit binary32 pattern, from DECODE. -/
  | single
  /-- A 6-bit class vector, from CLASSIFY. -/
  | cls
  /-- One class bit, from a predicate. -/
  | bit
  deriving DecidableEq, Repr

end Sys2Proof
end

