-- ==== Sys2Proof/WellFormed.lean ====
section
/-! DEFINITION. What is well formed: every request (30_encoding R64, R65), a raw request whose op has a meaning and
whose length is the op's (R68, R71), a program whose labels increase and whose operands are legal (R73). -/

namespace Sys2Proof

/-- No operand value is illegal or reserved (30_encoding R64, R65, R71), so every request is well formed. -/
def Instr.wf : Instr → Bool
  | .encode _ => true
  | .decode _ => true
  | .classify _ => true

/-- A raw request has a meaning when its op is not 0b11 and its operand has the width the op fixes (30_encoding R68, R71). -/
def requestWf : List Bool → Bool
  | false :: false :: operand => operand.length == 32
  | false :: true :: operand => operand.length == 16
  | true :: false :: operand => operand.length == 16
  | _ => false

/-- The kind of result a raw request has, by its op (30_encoding R67). -/
def requestKind : List Bool → Kind
  | false :: false :: _ => .half
  | false :: true :: _ => .single
  | _ => .cls

/-- The kind of a line's result (30_encoding R67, R74). -/
def LineOp.kind : LineOp → Kind
  | .request bits => requestKind bits
  | .encode _ => .half
  | .decode _ => .single
  | .classify _ => .cls
  | .predicate _ _ => .bit

/-- The kinds of the results known so far, by label. -/
abbrev KindEnv := List (Label × Kind)

/-- The kind of the result under a label, if a line with that label has run. -/
def KindEnv.kindOf (k : Label) : KindEnv → Option Kind
  | [] => none
  | (l, c) :: rest => if l = k then some c else KindEnv.kindOf k rest

/-- `%<k>` is legal only where line k is earlier and its result has the operand's width (30_encoding R73). -/
def Operand.wf {w : Nat} (env : KindEnv) (need : Kind) : Operand w → Bool
  | .lit _ => true
  | .ref k => env.kindOf k == some need

/-- A legal right-hand side: DECODE's result may feed ENCODE, ENCODE's result may feed DECODE and CLASSIFY,
and a CLASSIFY result feeds nothing (30_encoding R73). -/
def LineOp.wf (env : KindEnv) : LineOp → Bool
  | .request bits => requestWf bits
  | .encode x => x.wf env .single
  | .decode x => x.wf env .half
  | .classify x => x.wf env .half
  | .predicate _ x => x.wf env .half

/-- A label above every label of the lines before it: labels are unique and increasing (30_encoding R73). -/
def KindEnv.below (env : KindEnv) (l : Label) : Bool :=
  env.all fun e => e.1.key < l.key

/-- A legal program, after lines whose results have the kinds `env` (30_encoding R73). -/
def programWf (env : KindEnv) : List Line → Bool
  | [] => true
  | l :: rest => env.below l.label && l.op.wf env && programWf (env ++ [(l.label, l.op.kind)]) rest

end Sys2Proof
end

