-- ==== Sys2Proof/Decode.lean ====
section
/-! DEFINITION. Reading a raw request: from bits, most significant first (30_encoding R68), to an `Instr` or a refusal
by name; and writing one. A request is 34 or 18 bits and no whole number of bytes, and the block has no memory it
could lie in (20_memory R40, R41), so the decoder reads a list of bits and not of bytes: DESIGN CHOICE (log entry 12),
safe. -/

namespace Sys2Proof

/-- Why a bit string is no request. -/
inductive DecodeError where
  /-- Fewer than two bits: there is no op (30_encoding R68). -/
  | noOp
  /-- op = 0b11, "the only encoding with no meaning" (30_encoding R71). -/
  | reservedOp
  /-- The operand has not the width its op fixes (30_encoding R68, R72); carries the width found. -/
  | operandWidth (found : Nat)
  deriving DecidableEq, Repr

/-- The `n` low bits of `x`, most significant first. -/
def bitsOf : Nat → Nat → List Bool
  | 0, _ => []
  | n + 1, x => x.testBit n :: bitsOf n x

/-- The unsigned number written by bits, most significant first (00_scope R13, R14). -/
def natOfBits : List Bool → Nat
  | [] => 0
  | b :: rest => b.toNat * 2 ^ rest.length + natOfBits rest

/-- An operand of exactly `w` bits (30_encoding R68). -/
def operandOfBits (w : Nat) (bits : List Bool) : Except DecodeError (BitVec w) :=
  if bits.length = w then .ok (BitVec.ofNat w (natOfBits bits)) else .error (.operandWidth bits.length)

/-- The request a bit string is (30_encoding R67, R68), total, refusing by name what is none (R71, R72). -/
def decodeRequest : List Bool → Except DecodeError Instr
  | false :: false :: operand => (operandOfBits 32 operand).map .encode
  | false :: true :: operand => (operandOfBits 16 operand).map .decode
  | true :: false :: operand => (operandOfBits 16 operand).map .classify
  | true :: true :: _ => .error .reservedOp
  | [_] => .error .noOp
  | [] => .error .noOp

/-- The 2-bit op (30_encoding R67). -/
def Instr.op : Instr → BitVec 2
  | .encode _ => 0b00#2
  | .decode _ => 0b01#2
  | .classify _ => 0b10#2

/-- The operand's bits, most significant first (30_encoding R68). -/
def Instr.operandBits : Instr → List Bool
  | .encode f => bitsOf 32 f.toNat
  | .decode h => bitsOf 16 h.toNat
  | .classify h => bitsOf 16 h.toNat

/-- The encoder: the op followed by the operand, most significant bit first (30_encoding R68). -/
def encodeRequest (i : Instr) : List Bool :=
  bitsOf 2 i.op.toNat ++ i.operandBits

/-- The raw request whose bits are `w` as the opcode table numbers them (bit 0 least significant). The op is at the
top of a request, so its length decides where: a row of at most 24 bits is an 18-bit request (DECODE, CLASSIFY) and a
longer one a 34-bit request (ENCODE), as 30_encoding R68 and the opcode table give them. Bits above the request's
length are kept, so that the decoder refuses the word and does not drop them: DESIGN CHOICE (log entry 5), safe. -/
def tableRequest (nbits w : Nat) : List Bool :=
  if nbits ≤ 24 then
    if w < 2 ^ 18 then bitsOf 18 w else bitsOf 24 w
  else
    if w < 2 ^ 34 then bitsOf 34 w else bitsOf 40 w

/-- What the decoder reads from an opcode-table word. -/
def decodeTableWord (nbits w : Nat) : Option Instr :=
  (decodeRequest (tableRequest nbits w)).toOption

end Sys2Proof
end

