-- ==== Sys2Proof/Machine/State.lean ====
section
/-! DEFINITION. The state of the machine. The block itself holds no architectural state (10_state R20): what stands
here is what its user drives (the input ports, 10_state R28 to R30), the parameters its implementation fixes (00_scope
R10, R11), and the user's program with the results it has so far (30_encoding R75). The output ports are functions of
the input ports (Machine/Ports.lean) and are not stored. -/

namespace Sys2Proof.Machine

/-- The result of a line (30_encoding R67, R74, R75). -/
inductive Result where
  /-- ENCODE's 16-bit binary16 pattern. -/
  | half (h : Half)
  /-- DECODE's 32-bit binary32 pattern. -/
  | single (f : Single)
  /-- CLASSIFY's 6-bit class vector. -/
  | cls (c : ClassVec)
  /-- The class bit a predicate selects. -/
  | bit (b : BitVec 1)
  deriving DecidableEq, Repr

/-- The map from line label to result (30_encoding R75), in one canonical form: labels strictly rising (`Results.wf`). -/
abbrev Results := List (Label × Result)

/-- The parameters an implementation fixes (00_scope R10, R11); no step changes them (70_reset R231). -/
structure Params where
  enc : EncNanMap
  dec : DecNanMap
  deriving DecidableEq, Repr

/-- Where the evaluation under way files its result: the line's label, and the class bit the line selects, if any.
DESIGN CHOICE (log entry 2): the model's own, not the spec's. -/
structure Target where
  label : Label
  select : Option Predicate
  deriving DecidableEq, Repr

/-- One block with one user: what drives it, what it was built with, and what its program still asks and has got. -/
structure State where
  /-- `enc_f32_in` (10_state R28); none while it is not driven (R32, R33): DESIGN CHOICE (log entry 1), safe. Once driven it
  holds the last driven value: DESIGN CHOICE (log entry 13), unsafe. -/
  encF32In : Option Single
  /-- `dec_h_in` (10_state R29); none while it is not driven (R32, R33): DESIGN CHOICE (log entry 1), safe. Once driven it
  holds the last driven value: DESIGN CHOICE (log entry 13), unsafe. -/
  decHIn : Option Half
  /-- `cls_h_in` (10_state R30); none while it is not driven (R32, R33): DESIGN CHOICE (log entry 1), safe. Once driven it
  holds the last driven value: DESIGN CHOICE (log entry 13), unsafe. -/
  clsHIn : Option Half
  /-- `ENC_NAN_MAP` and `DEC_NAN_MAP` (00_scope R10, R11). -/
  params : Params
  /-- The lines not yet run, oldest first (30_encoding R73, R75). -/
  program : List Line
  /-- Where the evaluation under way files its result. -/
  target : Target
  /-- The results so far (30_encoding R75). -/
  results : Results
  deriving DecidableEq, Repr

/-- The block has no fault: no unit raises an exception for any input (60_exceptions R200), and nothing can stick
(93 part 1). So there is no fault reason at all, and no step can answer one. -/
inductive Fault where
  deriving DecidableEq, Repr

/-- Why the model refuses a line, at its boundary; no hardware event corresponds to one (60_exceptions R202). DEDUCED for
the illegal lines of 30_encoding R73 (log entry 10). All are SAFE: the run stops with no result. -/
inductive Refusal where
  /-- Raised by `exec` only, for an instruction without a meaning; safe. No arm raises it. -/
  | notModelled (mnemonic : String)
  /-- Raised by `State.resolve` on a raw request that is none: op = 0b11 (30_encoding R71, 60_exceptions R202), or a
  length that is not its op's (30_encoding R68, R72); safe. -/
  | noRequest (e : DecodeError)
  /-- Raised by `State.resolve` on a line whose label does not lie above those of the results (30_encoding R73:
  labels are unique and increasing); safe. -/
  | labelNotIncreasing (l : Label)
  /-- Raised by `State.resolve` on an operand `%<k>` where no result stands under k: a line's result "is defined
  once the operand is defined" (30_encoding R75); safe. -/
  | operandNotDefined (k : Label)
  /-- Raised by `State.resolve` on an operand `%<k>` whose result has not the operand's width (30_encoding R73);
  safe. -/
  | operandWidth (k : Label)
  deriving DecidableEq, Repr

/-- Right after power-up. No input is driven, so no output has a value: DESIGN CHOICE (log entry 14), unsafe, since
10_state R33 and 70_reset R230 say only that an output has no value before its input is driven, and not whether a user
already drives one. The NaN maps are the spec's defaults (40_encode R103, 41_decode R146): DESIGN CHOICE (log entry 3),
unsafe for a claim that reads a NaN result from here. No program is loaded and no result stands (95_test_vectors
section 3): DESIGN CHOICE (log entry 2). -/
def State.reset : State :=
  { encF32In := none
    decHIn := none
    clsHIn := none
    params := { enc := .specDefault, dec := .specDefault }
    program := []
    target := { label := .line 0, select := none }
    results := [] }

end Sys2Proof.Machine
end

