-- ==== Sys2Proof/Machine/Operands.lean ====
section
/-! DEFINITION. The fields of the two formats (30_encoding R60, R61, R69), the results map (R75), and the operands of a
program line (R73). Every field is read as an unsigned value (00_scope R15). -/

namespace Sys2Proof.Machine

/-- `s = f[31]` (30_encoding R60). The binary32 positions are PRESUMED by the spec itself (93 G4, log entry 11), unsafe. -/
def sign32 (f : Single) : BitVec 1 := f.extractLsb' 31 1

/-- `E = f[30:23]` (30_encoding R60). -/
def exp32 (f : Single) : BitVec 8 := f.extractLsb' 23 8

/-- `M = f[22:0]` (30_encoding R60). -/
def man32 (f : Single) : BitVec 23 := f.extractLsb' 0 23

/-- `s = h[15]` (30_encoding R61). -/
def sign16 (h : Half) : BitVec 1 := h.extractLsb' 15 1

/-- `E = h[14:10]` (30_encoding R61). -/
def exp16 (h : Half) : BitVec 5 := h.extractLsb' 10 5

/-- `M = h[9:0]` (30_encoding R61). -/
def man16 (h : Half) : BitVec 10 := h.extractLsb' 0 10

/-- The concatenation `(s, E, M)` as a binary16 pattern (00_scope R14, 30_encoding R61). -/
def pack16 (s : BitVec 1) (e : BitVec 5) (m : BitVec 10) : Half := s ++ e ++ m

/-- The concatenation `(s, E, M)` as a binary32 pattern (00_scope R14, 30_encoding R60). -/
def pack32 (s : BitVec 1) (e : BitVec 8) (m : BitVec 23) : Single := s ++ e ++ m

/-- The kind of a result (30_encoding R67, R74). -/
def Result.kind : Result → Kind
  | .half _ => .half
  | .single _ => .single
  | .cls _ => .cls
  | .bit _ => .bit

/-- The result under a label, if that line has run (30_encoding R75). -/
def Results.get (k : Label) : Results → Option Result
  | [] => none
  | (l, r) :: rest => if l = k then some r else Results.get k rest

/-- The map with the result `r` under the label `k`, in its canonical form: labels strictly rising. -/
def Results.insert (k : Label) (r : Result) : Results → Results
  | [] => [(k, r)]
  | (l, q) :: rest =>
    if k.key < l.key then (k, r) :: (l, q) :: rest
    else if l.key < k.key then (l, q) :: Results.insert k r rest
    else (k, r) :: rest

/-- Every label of the map lies above `k`. -/
def Results.above (k : Label) (rs : Results) : Bool := rs.all fun e => k.key < e.1.key

/-- The canonical form of the map: labels strictly rising. -/
def Results.wf : Results → Bool
  | [] => true
  | (l, _) :: rest => Results.above l rest && Results.wf rest

/-- The kinds of the results, by label. -/
def Results.kinds (rs : Results) : KindEnv := rs.map fun e => (e.1, e.2.kind)

/-- The value of a 32-bit operand: its literal, or DECODE's result under `%<k>` (30_encoding R73, R75). -/
def State.operand32 (s : State) : Operand 32 → Except Refusal Single
  | .lit v => .ok v
  | .ref k =>
    match s.results.get k with
    | some (.single f) => .ok f
    | some (.half _) => .error (.operandWidth k)
    | some (.cls _) => .error (.operandWidth k)
    | some (.bit _) => .error (.operandWidth k)
    | none => .error (.operandNotDefined k)

/-- The value of a 16-bit operand: its literal, or ENCODE's result under `%<k>` (30_encoding R73, R75). -/
def State.operand16 (s : State) : Operand 16 → Except Refusal Half
  | .lit v => .ok v
  | .ref k =>
    match s.results.get k with
    | some (.half h) => .ok h
    | some (.single _) => .error (.operandWidth k)
    | some (.cls _) => .error (.operandWidth k)
    | some (.bit _) => .error (.operandWidth k)
    | none => .error (.operandNotDefined k)

/-- A label above those of all results: labels are unique and increasing (30_encoding R73). -/
def State.acceptsLabel (s : State) (l : Label) : Bool := s.results.all fun e => e.1.key < l.key

/-- The request a line's right-hand side asks for, and the class bit it selects (30_encoding R67, R73, R74). -/
def State.resolveOp (s : State) : LineOp → Except Refusal (Instr × Option Predicate)
  | .request bits =>
    match decodeRequest bits with
    | .ok i => .ok (i, none)
    | .error e => .error (.noRequest e)
  | .encode x => (s.operand32 x).map fun f => (.encode f, none)
  | .decode x => (s.operand16 x).map fun h => (.decode h, none)
  | .classify x => (s.operand16 x).map fun h => (.classify h, none)
  | .predicate p x => (s.operand16 x).map fun h => (.classify h, some p)

/-- The request a line asks for, or why it is no legal line (30_encoding R71, R73). -/
def State.resolve (s : State) (l : Line) : Except Refusal (Instr × Option Predicate) :=
  if s.acceptsLabel l.label then s.resolveOp l.op else .error (.labelNotIncreasing l.label)

end Sys2Proof.Machine
end

