-- ==== Sys2Proof/Machine/Flags.lean ====
section
/-! DEFINITION. The class of a pattern (30_encoding R62, R63) and the six class bits (42_classify R171 to R176). The
block has no status flag of any kind: no inexact, overflow, underflow, invalid or divide-by-zero, sticky or not
(10_state R23), so no flag is computed here or kept in State. -/

namespace Sys2Proof.Machine

/-- `cls_is_zero` (42_classify R171). -/
def isZero (h : Half) : Bool := exp16 h == 0 && man16 h == 0

/-- `cls_is_subnormal` (42_classify R172). -/
def isSubnormal (h : Half) : Bool := exp16 h == 0 && man16 h != 0

/-- `cls_is_normal` (42_classify R173). -/
def isNormal (h : Half) : Bool := exp16 h != 0 && exp16 h != 31

/-- `cls_is_infinite` (42_classify R174). -/
def isInfinite (h : Half) : Bool := exp16 h == 31 && man16 h == 0

/-- `cls_is_nan` (42_classify R175), for quiet and signalling NaNs alike. -/
def isNan (h : Half) : Bool := exp16 h == 31 && man16 h != 0

/-- `cls_is_neg_zero` (42_classify R176). -/
def isNegZero (h : Half) : Bool := h == 0x8000

/-- A binary32 NaN: E == 255 and M != 0 (30_encoding R62). -/
def isNan32 (f : Single) : Bool := exp32 f == 255 && man32 f != 0

/-- The classes of a pattern in either format (30_encoding R62, R63). -/
inductive FpClass where
  | zero | subnormal | normal | infinity | quietNan | signallingNan
  deriving DecidableEq, Repr

/-- The class of a binary16 pattern (30_encoding R63); M[9] set means quiet. -/
def class16 (h : Half) : FpClass :=
  if exp16 h = 0 then
    if man16 h = 0 then .zero else .subnormal
  else if exp16 h = 31 then
    if man16 h = 0 then .infinity
    else if (man16 h).getLsbD 9 then .quietNan else .signallingNan
  else .normal

/-- The class of a binary32 pattern (30_encoding R62); M[22] set means quiet. -/
def class32 (f : Single) : FpClass :=
  if exp32 f = 0 then
    if man32 f = 0 then .zero else .subnormal
  else if exp32 f = 255 then
    if man32 f = 0 then .infinity
    else if (man32 f).getLsbD 22 then .quietNan else .signallingNan
  else .normal

/-- The six class bits packed as c[5:0] (30_encoding R70). -/
def packClass (zero subnormal normal infinite nan negZero : Bool) : ClassVec :=
  BitVec.ofBool negZero ++ BitVec.ofBool nan ++ BitVec.ofBool infinite ++ BitVec.ofBool normal
    ++ BitVec.ofBool subnormal ++ BitVec.ofBool zero

/-- The bit of c that a predicate selects (30_encoding R74). -/
def classBitIndex : Predicate → Nat
  | .isZero => 0
  | .isDenormalized => 1
  | .isNormal => 2
  | .isInfinite => 3
  | .isNaN => 4
  | .isNegativeZero => 5

/-- What a line files: the whole result, or the class bit it selects (30_encoding R74). Only a CLASSIFY result has
class bits, and only CLASSIFY is ever asked for one. -/
def Target.pick (t : Target) (r : Result) : Result :=
  match t.select with
  | none => r
  | some p =>
    match r with
    | .cls c => .bit (c.extractLsb' (classBitIndex p) 1)
    | .half h => .half h
    | .single f => .single f
    | .bit b => .bit b

end Sys2Proof.Machine
end

