-- ==== Sys2Proof/Machine/NanMaps.lean ====
section
/-! DEFINITION. The NaN maps: the spec's defaults (40_encode R103, 41_decode R146), the constraints on every map (40_encode
R104, 41_decode R147), and the map each plain-data name of Config.lean stands for. -/

namespace Sys2Proof.Machine

/-- The default `ENC_NAN_MAP` (40_encode R103): the top ten payload bits, or 1 where they are all zero. -/
def encNanDefault (s : BitVec 1) (M : BitVec 23) : Half :=
  let m : BitVec 10 := M.extractLsb' 13 10
  pack16 s 0b11111 (if m = 0 then 1 else m)

/-- The default `DEC_NAN_MAP` (41_decode R146). -/
def decNanDefault (s : BitVec 1) (M : BitVec 10) : Single :=
  pack32 s 0xFF (M ++ 0#13)

/-- A binary16 pattern made a NaN: the identity on NaNs, so that every map meeting NAN-E1 arises (40_encode R104). -/
def toNan16 (h : Half) : Half :=
  pack16 (sign16 h) 0b11111 (if man16 h = 0 then 1 else man16 h)

/-- A binary32 pattern made a NaN: the identity on NaNs, so that every map meeting NAN-D1 arises (41_decode R147). -/
def toNan32 (f : Single) : Single :=
  pack32 (sign32 f) 0xFF (if man32 f = 0 then 1 else man32 f)

/-- The canonical encoder map of 95_test_vectors 2.5. -/
def encNanCanonical (_s : BitVec 1) (_M : BitVec 23) : Half := 0x7E00

/-- The forced-quiet decoder map of 95_test_vectors 2.5: the default, then bit 22 set. -/
def decNanForcedQuiet (s : BitVec 1) (M : BitVec 10) : Single := decNanDefault s M ||| 0x00400000

/-- The `ENC_NAN_MAP` an implementation has (00_scope R10). -/
def encNanOf : EncNanMap → EncNanFun
  | .specDefault => encNanDefault
  | .canonical => encNanCanonical
  | .own => fun s M => toNan16 (Config.encNanOwn s M)

/-- The `DEC_NAN_MAP` an implementation has (00_scope R11). -/
def decNanOf : DecNanMap → DecNanFun
  | .specDefault => decNanDefault
  | .forcedQuiet => decNanForcedQuiet
  | .own => fun s M => toNan32 (Config.decNanOwn s M)

/-- NAN-E1, "must": the result is a NaN (40_encode R104). -/
def NanE1 (map : EncNanFun) : Prop := ∀ s M, M ≠ 0 → exp16 (map s M) = 31 ∧ man16 (map s M) ≠ 0

/-- NAN-E2, "should": the sign is kept (40_encode R104). -/
def NanE2 (map : EncNanFun) : Prop := ∀ s M, M ≠ 0 → sign16 (map s M) = s

/-- NAN-E3, "should": a quiet NaN stays quiet (40_encode R104). -/
def NanE3 (map : EncNanFun) : Prop := ∀ s M, M ≠ 0 → M.getLsbD 22 = true → (map s M).getLsbD 9 = true

/-- NAN-D1, "must": the result is a NaN (41_decode R147). -/
def NanD1 (map : DecNanFun) : Prop := ∀ s M, M ≠ 0 → exp32 (map s M) = 255 ∧ man32 (map s M) ≠ 0

/-- NAN-D2, "should": the sign is kept (41_decode R147). -/
def NanD2 (map : DecNanFun) : Prop := ∀ s M, M ≠ 0 → sign32 (map s M) = s

/-- NAN-D3, "should": quietness is kept (41_decode R147). -/
def NanD3 (map : DecNanFun) : Prop := ∀ s M, M ≠ 0 → (map s M).getLsbD 22 = M.getLsbD 9

end Sys2Proof.Machine
end

