-- ==== Sys2Proof/Machine/Ops.lean ====
section
/-! DEFINITION. The shared operations: rounding (00_scope R17), the leading bit (41_decode R140), driving a port
(00_scope R16, 10_state R28 to R30), filing a result (30_encoding R75), beginning a line and loading a program.
Taking an exception and returning from one are no operations of this block: no unit raises one, nothing is saved, no
mode changes and control goes nowhere (60_exceptions R200, R205, R206). -/

namespace Sys2Proof.Machine

/-- Round to nearest, ties to even: `a` without its `k` low bits (00_scope R17), on unbounded integers (R15). -/
def rneShift (a k : Nat) : Nat :=
  let q := a >>> k
  let r := a % 2 ^ k
  let half := 2 ^ (k - 1)
  if r > half ∨ (r = half ∧ q % 2 = 1) then q + 1 else q

/-- `msb_index(M)`, the largest p with M[p] = 1, for M != 0 (41_decode R140). -/
def msbIndex (M : BitVec 10) : Nat := M.toNat.log2

/-- Drive `enc_f32_in` with `f` (10_state R28, 30_encoding R67). The port then holds `f` until ENC's next evaluation, and
nothing undrives it: DESIGN CHOICE (log entry 13), unsafe, since the spec does not say how long a user drives a port. -/
def State.driveEnc (s : State) (f : Single) : State := { s with encF32In := some f }

/-- Drive `dec_h_in` with `h` (10_state R29, 30_encoding R67). The port then holds `h` until DEC's next evaluation, and
nothing undrives it: DESIGN CHOICE (log entry 13), unsafe. -/
def State.driveDec (s : State) (h : Half) : State := { s with decHIn := some h }

/-- Drive `cls_h_in` with `h` (10_state R30, 30_encoding R67). The port then holds `h` until CLS's next evaluation, and
nothing undrives it: DESIGN CHOICE (log entry 13), unsafe. -/
def State.driveCls (s : State) (h : Half) : State := { s with clsHIn := some h }

/-- File the result of the evaluation under way: under its line's label, whole or the bit its line selects
(30_encoding R74, R75). -/
def State.file (s : State) (r : Result) : State :=
  { s with results := s.results.insert s.target.label (s.target.pick r) }

/-- Begin a line: it leaves the program, and the evaluation files under its label (30_encoding R73, R75). -/
def State.beginLine (s : State) (l : Label) (select : Option Predicate) (rest : List Line) : State :=
  { s with program := rest, target := { label := l, select := select } }

/-- A program loaded from outside, with the map of results empty (30_encoding R75, 95_test_vectors section 3). The
input ports keep what they hold: DESIGN CHOICE (log entry 13), unsafe. -/
def State.load (s : State) (p : List Line) : State := { s with program := p, results := [] }

/-- One more than the largest number of a label of the map. -/
def Results.freshNumber : Results → Nat
  | [] => 1
  | (.line n, _) :: rest => max (n + 1) (Results.freshNumber rest)
  | (.temp n, _) :: rest => max (n + 1) (Results.freshNumber rest)

/-- A raw request put where the next line stands, under that line's label where it has a legal one and else under a
fresh label; the lines after it stay: DESIGN CHOICE (log entry 5), safe. -/
def State.placeRequest (s : State) (bits : List Bool) : State :=
  let fresh := Label.line s.results.freshNumber
  let label :=
    match s.program with
    | [] => fresh
    | l :: _ => if s.acceptsLabel l.label then l.label else fresh
  { s with program := { label := label, op := .request bits } :: s.program.drop 1 }

end Sys2Proof.Machine
end

