-- ==== Sys2Proof/Machine/ClassifyUnit.lean ====
section
/-! DEFINITION. The fp_classifier unit (42_classify). -/

namespace Sys2Proof.Machine

/-- CLASSIFY (42_classify R170); it reads raw bits only and no parameter (R179). -/
def classifyF16 (h : Half) : ClassVec :=
  packClass (isZero h) (isSubnormal h) (isNormal h) (isInfinite h) (isNan h) (isNegZero h)

/-- CLASSIFY as one atomic step: drive `cls_h_in` with `h` and take what the unit yields (42_classify R170, 30_encoding
R67). No flag is written and nothing is raised (42_classify R180). -/
def execClassify (h : Half) (s : State) : Host.Outcome State Fault Refusal :=
  .next ((s.driveCls h).file (.cls (classifyF16 h)))

end Sys2Proof.Machine
end

