-- ==== Sys2Proof/Machine/DecodeUnit.lean ====
section
/-! DEFINITION. The fp_half_decoder unit (41_decode). -/

namespace Sys2Proof.Machine

/-- DECODE (41_decode R140), for a value of the parameter `DEC_NAN_MAP` (00_scope R11). -/
def decodeF16 (nanMap : DecNanFun) (h : Half) : Single :=
  let s := sign16 h
  let E := (exp16 h).toNat
  let M := (man16 h).toNat
  if E = 0 ∧ M = 0 then pack32 s 0 0                                  -- R141
  else if E = 0 then                                                  -- R142
    let p := msbIndex (man16 h)
    pack32 s (BitVec.ofNat 8 (p + 103)) (BitVec.ofNat 23 (M * 2 ^ (23 - p) % 2 ^ 23))
  else if E = 31 ∧ M = 0 then pack32 s 0xFF 0                         -- R144
  else if E = 31 then nanMap s (man16 h)                              -- R145
  else pack32 s (BitVec.ofNat 8 (E + 112)) (man16 h ++ 0#13)          -- R143

/-- DECODE as one atomic step: drive `dec_h_in` with `h` and take what the unit yields (41_decode R140, 30_encoding
R67). No flag is written and nothing is raised (41_decode R152). -/
def execDecode (h : Half) (s : State) : Host.Outcome State Fault Refusal :=
  .next ((s.driveDec h).file (.single (decodeF16 (decNanOf s.params.dec) h)))

end Sys2Proof.Machine
end

