-- ==== Sys2Proof/Machine/EncodeUnit.lean ====
section
/-! DEFINITION. The fp_half_encoder unit (40_encode). -/

namespace Sys2Proof.Machine

/-- `(s, zext_15(t))` (00_scope R14, R15); 40_encode R108 and R110 show that every t written fits. -/
def signed15 (s : BitVec 1) (t : Nat) : Half := s ++ BitVec.ofNat 15 t

/-- The infinity of a sign (40_encode R102, R106). -/
def inf16 (s : BitVec 1) : Half := pack16 s 0b11111 0

/-- ENCODE (40_encode R100), for a value of the parameter `ENC_NAN_MAP` (00_scope R10). -/
def encodeF32 (nanMap : EncNanFun) (f : Single) : Half :=
  let s := sign32 f
  let E := (exp32 f).toNat
  let M := (man32 f).toNat
  if E = 255 ∧ M = 0 then inf16 s                                    -- R102
  else if E = 255 then nanMap s (man32 f)                            -- R103
  else
    let e : Int := (E : Int) - 112                                   -- R105
    if e ≥ 31 then inf16 s                                           -- R106
    else if e ≥ 1 then signed15 s (e.toNat * 2 ^ 10 + rneShift M 13) -- R107, R108
    else if e ≥ -10 then signed15 s (rneShift (2 ^ 23 + M) (14 - e).toNat) -- R109, R110
    else signed15 s 0                                                -- R111

/-- ENCODE as one atomic step: drive `enc_f32_in` with `f` and take what the unit yields (40_encode R100, 30_encoding
R67). No flag is written and nothing is raised (40_encode R115). -/
def execEncode (f : Single) (s : State) : Host.Outcome State Fault Refusal :=
  .next ((s.driveEnc f).file (.half (encodeF32 (encNanOf s.params.enc) f)))

end Sys2Proof.Machine
end

