-- ==== Sys2Proof/Machine/Dispatch.lean ====
section
/-! DEFINITION. One arm per constructor of Instr (30_encoding R67). -/

namespace Sys2Proof.Machine

def exec (i : Instr) (s : State) : Host.Outcome State Fault Refusal :=
  match i with
  | .encode f => Sys2Proof.Machine.execEncode f s
  | .decode h => Sys2Proof.Machine.execDecode h s
  | .classify h => Sys2Proof.Machine.execClassify h s

end Sys2Proof.Machine
end

