-- ==== Sys2Proof/Machine/Ports.lean ====
section
/-! DEFINITION. The output ports (10_state R28 to R30): each a function of its unit's current input at all times (R20), with no
value before that input is driven (R33; DESIGN CHOICE, log entry 1, safe). An idle unit's input holds its last driven
value, so its outputs stay (DESIGN CHOICE, log entry 13, unsafe). -/

namespace Sys2Proof.Machine

/-- `enc_h_out` (10_state R28). -/
def State.encHOut (s : State) : Option Half := s.encF32In.map (encodeF32 (encNanOf s.params.enc))

/-- `dec_f32_out` (10_state R29). -/
def State.decF32Out (s : State) : Option Single := s.decHIn.map (decodeF16 (decNanOf s.params.dec))

/-- Bit `i` of the classifier's output (10_state R30, 30_encoding R70). -/
def State.clsBit (s : State) (i : Nat) : Option (BitVec 1) :=
  s.clsHIn.map fun h => (classifyF16 h).extractLsb' i 1

/-- `cls_is_zero` (10_state R30). -/
def State.clsIsZero (s : State) : Option (BitVec 1) := s.clsBit 0

/-- `cls_is_subnormal` (10_state R30). -/
def State.clsIsSubnormal (s : State) : Option (BitVec 1) := s.clsBit 1

/-- `cls_is_normal` (10_state R30). -/
def State.clsIsNormal (s : State) : Option (BitVec 1) := s.clsBit 2

/-- `cls_is_infinite` (10_state R30). -/
def State.clsIsInfinite (s : State) : Option (BitVec 1) := s.clsBit 3

/-- `cls_is_nan` (10_state R30). -/
def State.clsIsNan (s : State) : Option (BitVec 1) := s.clsBit 4

/-- `cls_is_neg_zero` (10_state R30). -/
def State.clsIsNegZero (s : State) : Option (BitVec 1) := s.clsBit 5

end Sys2Proof.Machine
end

