-- ==== Sys2Proof/Machine/Step.lean ====
section
/-! DEFINITION. One step: the next line of the program, as one atomic evaluation of one unit (30_encoding R75, 70_reset R232). -/

namespace Sys2Proof.Machine

/-- Run the next line (30_encoding R75). A program "ends after the last" line, and the block itself goes on doing
nothing but drive its outputs, so with no line left a step changes nothing: DESIGN CHOICE (log entry 7), safe. -/
def step (s : State) : Host.Outcome State Fault Refusal :=
  match s.program with
  | [] => .next s
  | l :: rest =>
    match s.resolve l with
    | .error r => .refused r
    | .ok (i, select) => exec i (s.beginLine l.label select rest)

/-- The state whose next line is the raw request of an opcode-table word: DESIGN CHOICE (log entry 5), safe. -/
def State.withFetchWord (s : State) (nbits w : Nat) : State := s.placeRequest (tableRequest nbits w)

end Sys2Proof.Machine
end

