-- ==== Sys2Proof/Machine/Assembly.lean ====
section
/-! DEFINITION. The textual form of programs (30_encoding R73) and the pseudo-operations (R74), over lists of characters.
What R73 leaves open, the case of a hexadecimal digit and the white space between words, is a DESIGN CHOICE (log entry 6), safe. -/

namespace Sys2Proof.Machine

/-- Why a text is no program in the form of 30_encoding R73. -/
inductive AsmError where
  /-- A line is not of the form `%<n> = <MNEMONIC> <operand>`. -/
  | badLine
  /-- No mnemonic, source name or pseudo-operation. -/
  | badMnemonic
  /-- Neither a literal of the operand's width nor `%<k>`. -/
  | badOperand
  /-- The labels do not increase, or an operand `%<k>` is not legal. -/
  | illegalProgram
  deriving DecidableEq, Repr

/-- The text before the comment: "Text after `--` is a comment" (30_encoding R73). -/
def dropComment : List Char → List Char
  | [] => []
  | '-' :: '-' :: _ => []
  | c :: rest => c :: dropComment rest

/-- A character between two words of a line. -/
def isBlank (c : Char) : Bool := c == ' ' || c == '\t' || c == '\r'

/-- The words of a line. -/
def wordsOf : List Char → List (List Char)
  | [] => []
  | c :: rest =>
    if isBlank c then wordsOf rest
    else
      match rest, wordsOf rest with
      | [], _ => [[c]]
      | d :: _, ws =>
        if isBlank d then [c] :: ws
        else
          match ws with
          | [] => [[c]]
          | w :: more => (c :: w) :: more

/-- The lines of a text. -/
def linesOf : List Char → List (List Char)
  | [] => [[]]
  | c :: rest =>
    if c == '\n' then [] :: linesOf rest
    else
      match linesOf rest with
      | [] => [[c]]
      | l :: more => (c :: l) :: more

/-- The value of a hexadecimal digit of either case. -/
def hexDigit (c : Char) : Option Nat :=
  let n := c.toNat
  if 48 ≤ n ∧ n ≤ 57 then some (n - 48)
  else if 65 ≤ n ∧ n ≤ 70 then some (n - 55)
  else if 97 ≤ n ∧ n ≤ 102 then some (n - 87)
  else none

/-- The value of a decimal digit. -/
def decDigit (c : Char) : Option Nat :=
  let n := c.toNat
  if 48 ≤ n ∧ n ≤ 57 then some (n - 48) else none

/-- The number that digits write in a base, after the value `acc` of the digits before them. -/
def numberFrom (digit : Char → Option Nat) (base : Nat) : Nat → List Char → Option Nat
  | acc, [] => some acc
  | acc, c :: rest =>
    match digit c with
    | some d => numberFrom digit base (acc * base + d) rest
    | none => none

/-- `%<n>`, with a decimal n (30_encoding R73). -/
def parseLabel : List Char → Option Nat
  | '%' :: d :: rest => numberFrom decDigit 10 0 (d :: rest)
  | _ => none

/-- An operand of `w` bits: w/4 hexadecimal digits, or `%<k>` (30_encoding R73). -/
def parseOperand (w : Nat) (t : List Char) : Option (Operand w) :=
  match parseLabel t with
  | some k => some (.ref (.line k))
  | none =>
    if t.length * 4 = w then (numberFrom hexDigit 16 0 t).map fun n => .lit (BitVec.ofNat w n) else none

/-- The operations a word can name (30_encoding R73, R74). -/
inductive Mnemonic where
  | encode | decode | classify
  | predicate (p : Predicate)
  | roundtrip16
  deriving DecidableEq, Repr

/-- The operation a word names: the mnemonics in upper case, the source's names `encode` and `decode` (30_encoding R73)
and the pseudo-operations (R74). -/
def parseMnemonic (t : List Char) : Option Mnemonic :=
  if t = ['E', 'N', 'C', 'O', 'D', 'E'] ∨ t = ['e', 'n', 'c', 'o', 'd', 'e'] then some .encode
  else if t = ['D', 'E', 'C', 'O', 'D', 'E'] ∨ t = ['d', 'e', 'c', 'o', 'd', 'e'] then some .decode
  else if t = ['C', 'L', 'A', 'S', 'S', 'I', 'F', 'Y'] then some .classify
  else if t = ['i', 's', 'Z', 'e', 'r', 'o'] then some (.predicate .isZero)
  else if t = ['i', 's', 'D', 'e', 'n', 'o', 'r', 'm', 'a', 'l', 'i', 'z', 'e', 'd'] then some (.predicate .isDenormalized)
  else if t = ['i', 's', 'N', 'o', 'r', 'm', 'a', 'l'] then some (.predicate .isNormal)
  else if t = ['i', 's', 'I', 'n', 'f', 'i', 'n', 'i', 't', 'e'] then some (.predicate .isInfinite)
  else if t = ['i', 's', 'N', 'a', 'N'] then some (.predicate .isNaN)
  else if t = ['i', 's', 'N', 'e', 'g', 'a', 't', 'i', 'v', 'e', 'Z', 'e', 'r', 'o'] then some (.predicate .isNegativeZero)
  else if t = ['R', 'O', 'U', 'N', 'D', 'T', 'R', 'I', 'P', '1', '6'] then some .roundtrip16
  else none

/-- The statement of a label, an operation and an operand (30_encoding R73, R74). -/
def stmtOf (n : Nat) (m : Mnemonic) (t : List Char) : Option Stmt :=
  match m with
  | .encode => (parseOperand 32 t).map fun x => .line { label := .line n, op := .encode x }
  | .decode => (parseOperand 16 t).map fun x => .line { label := .line n, op := .decode x }
  | .classify => (parseOperand 16 t).map fun x => .line { label := .line n, op := .classify x }
  | .predicate p => (parseOperand 16 t).map fun x => .line { label := .line n, op := .predicate p x }
  | .roundtrip16 => (parseOperand 16 t).map fun x => .roundtrip16 n x

/-- One line of text: nothing but a comment, or a statement (30_encoding R73). -/
def parseLine (t : List Char) : Except AsmError (List Stmt) :=
  match wordsOf (dropComment t) with
  | [] => .ok []
  | [l, ['='], m, x] =>
    match parseLabel l, parseMnemonic m with
    | some n, some m =>
      match stmtOf n m x with
      | some st => .ok [st]
      | none => .error .badOperand
    | none, _ => .error .badLine
    | some _, none => .error .badMnemonic
  | _ => .error .badLine

/-- The statements of a text, line by line. -/
def parseLines : List (List Char) → Except AsmError (List Stmt)
  | [] => .ok []
  | t :: rest =>
    match parseLine t, parseLines rest with
    | .ok a, .ok b => .ok (a ++ b)
    | .error e, _ => .error e
    | .ok _, .error e => .error e

/-- A statement's lines: ROUNDTRIP16 is `%m = DECODE h` then `%n = ENCODE %m` (30_encoding R74). -/
def expand : Stmt → List Line
  | .line l => [l]
  | .roundtrip16 n x =>
    [{ label := .temp n, op := .decode x }, { label := .line n, op := .encode (.ref (.temp n)) }]

/-- The program a text writes: legal by 30_encoding R73, or refused by name. -/
def assemble (t : List Char) : Except AsmError (List Line) :=
  match parseLines (linesOf t) with
  | .error e => .error e
  | .ok stmts =>
    let p := stmts.flatMap expand
    if programWf [] p then .ok p else .error .illegalProgram

/-! ### Writing a program (30_encoding R73, R74): the text that `assemble` reads back -/

/-- An upper-case hexadecimal digit. -/
def hexChar (d : Nat) : Char := if d < 10 then Char.ofNat (48 + d) else Char.ofNat (55 + d)

/-- The `n` low hexadecimal digits of `x`, most significant first. -/
def hexOf : Nat → Nat → List Char
  | 0, _ => []
  | n + 1, x => hexChar (x / 16 ^ n % 16) :: hexOf n x

/-- `%<n>`. -/
def printLabel (n : Nat) : List Char := '%' :: Nat.toDigits 10 n

/-- An operand: w/4 hexadecimal digits, or `%<k>` (30_encoding R73). The label of ROUNDTRIP16's first half has no
spelling. -/
def printOperand {w : Nat} : Operand w → List Char
  | .lit v => hexOf (w / 4) v.toNat
  | .ref (.line k) => printLabel k
  | .ref (.temp _) => []

/-- The words that name a predicate (30_encoding R74). -/
def predicateName : Predicate → List Char
  | .isZero => ['i', 's', 'Z', 'e', 'r', 'o']
  | .isDenormalized => ['i', 's', 'D', 'e', 'n', 'o', 'r', 'm', 'a', 'l', 'i', 'z', 'e', 'd']
  | .isNormal => ['i', 's', 'N', 'o', 'r', 'm', 'a', 'l']
  | .isInfinite => ['i', 's', 'I', 'n', 'f', 'i', 'n', 'i', 't', 'e']
  | .isNaN => ['i', 's', 'N', 'a', 'N']
  | .isNegativeZero => ['i', 's', 'N', 'e', 'g', 'a', 't', 'i', 'v', 'e', 'Z', 'e', 'r', 'o']

/-- The words that may name a statement's operation (30_encoding R73, R74); a raw request has none. -/
def spellings : Stmt → List (List Char)
  | .line { label := _, op := .request _ } => []
  | .line { label := _, op := .encode _ } => [['E', 'N', 'C', 'O', 'D', 'E'], ['e', 'n', 'c', 'o', 'd', 'e']]
  | .line { label := _, op := .decode _ } => [['D', 'E', 'C', 'O', 'D', 'E'], ['d', 'e', 'c', 'o', 'd', 'e']]
  | .line { label := _, op := .classify _ } => [['C', 'L', 'A', 'S', 'S', 'I', 'F', 'Y']]
  | .line { label := _, op := .predicate p _ } => [predicateName p]
  | .roundtrip16 _ _ => [['R', 'O', 'U', 'N', 'D', 'T', 'R', 'I', 'P', '1', '6']]

/-- An operand a user can write. -/
def writableOperand {w : Nat} : Operand w → Bool
  | .lit _ => true
  | .ref (.line _) => true
  | .ref (.temp _) => false

/-- A statement a user can write: every label is a `%<n>`, and it is no raw request (30_encoding R73). -/
def writable : Stmt → Bool
  | .line { label := .line _, op := .encode x } => writableOperand x
  | .line { label := .line _, op := .decode x } => writableOperand x
  | .line { label := .line _, op := .classify x } => writableOperand x
  | .line { label := .line _, op := .predicate _ x } => writableOperand x
  | .line { label := .line _, op := .request _ } => false
  | .line { label := .temp _, op := _ } => false
  | .roundtrip16 _ x => writableOperand x

/-- The number of a statement's label. -/
def stmtNumber : Stmt → Nat
  | .line { label := .line n, op := _ } => n
  | .line { label := .temp n, op := _ } => n
  | .roundtrip16 n _ => n

/-- The text of a statement's operand. -/
def stmtOperand : Stmt → List Char
  | .line { label := _, op := .request _ } => []
  | .line { label := _, op := .encode x } => printOperand x
  | .line { label := _, op := .decode x } => printOperand x
  | .line { label := _, op := .classify x } => printOperand x
  | .line { label := _, op := .predicate _ x } => printOperand x
  | .roundtrip16 _ x => printOperand x

/-- `%<n> = <name> <operand>` (30_encoding R73). -/
def printAs (name : List Char) (st : Stmt) : List Char :=
  printLabel (stmtNumber st) ++ ' ' :: '=' :: ' ' :: (name ++ ' ' :: stmtOperand st)

/-- A program's text, one statement a line, each under its first spelling. -/
def printProgram (p : List Stmt) : List Char :=
  p.flatMap fun st => printAs ((spellings st).headD []) st ++ ['\n']

end Sys2Proof.Machine
end

