-- ==== Sys2Proof/Machine/HostImage.lean ====
section
/-! DEFINITION. The host's 2-byte image of a binary16 value (20_memory R41), outside the block: no step reads or writes it.
The byte order is OPEN (00_scope R12), so every function takes it as an argument. -/

namespace Sys2Proof.Machine

/-- The bytes at addresses a and a+1 that hold `h` (20_memory R41). -/
def hostStore : ByteOrder → Half → Byte × Byte
  | .little, h => (h.extractLsb' 0 8, h.extractLsb' 8 8)
  | .big, h => (h.extractLsb' 8 8, h.extractLsb' 0 8)

/-- The binary16 value that bytes at addresses a and a+1 hold (20_memory R41). -/
def hostLoad : ByteOrder → Byte × Byte → Half
  | .little, (b0, b1) => b1 ++ b0
  | .big, (b0, b1) => b0 ++ b1

end Sys2Proof.Machine
end

