-- ==== Sys2Proof/Machine/Values.lean ====
section
/-! DEFINITION. The values of patterns (00_scope R18), rounding of a value to binary16 (R17, 40_encode R112), and the named
constants (30_encoding R66). No unit computes with a value; these say what the bit rules mean. -/

namespace Sys2Proof.Machine

/-- What a pattern denotes (00_scope R18). Both zeros denote the number 0; their patterns stay distinct (R19). -/
inductive Value where
  | num (q : ℚ)
  | inf (negative : Bool)
  | nan
  deriving DecidableEq

/-- `(-1)^s`. -/
def signFactor (s : BitVec 1) : ℚ := if s = 1 then -1 else 1

/-- The number a finite binary16 pattern denotes (00_scope R18). -/
def num16 (h : Half) : ℚ :=
  if exp16 h = 0 then signFactor (sign16 h) * (man16 h).toNat * 2 ^ (-24 : ℤ)
  else signFactor (sign16 h) * 2 ^ ((exp16 h).toNat - 15 : ℤ) * (1 + (man16 h).toNat / 2 ^ 10)

/-- The number a finite binary32 pattern denotes (00_scope R18). PRESUMED by the spec itself (93 G1, log entry 11). -/
def num32 (f : Single) : ℚ :=
  if exp32 f = 0 then signFactor (sign32 f) * (man32 f).toNat * 2 ^ (-149 : ℤ)
  else signFactor (sign32 f) * 2 ^ ((exp32 f).toNat - 127 : ℤ) * (1 + (man32 f).toNat / 2 ^ 23)

/-- `val16` (00_scope R18). -/
def val16 (h : Half) : Value :=
  if exp16 h = 31 then
    if man16 h = 0 then .inf (sign16 h == 1) else .nan
  else .num (num16 h)

/-- `val32` (00_scope R18). -/
def val32 (f : Single) : Value :=
  if exp32 f = 255 then
    if man32 f = 0 then .inf (sign32 f == 1) else .nan
  else .num (num32 f)

/-- A finite binary16 pattern whose value is nearest to `v` among all finite ones, ties going to M[0] = 0
(00_scope R17, 40_encode R112). -/
def IsNearest16 (v : ℚ) (h : Half) : Prop :=
  exp16 h ≠ 31 ∧
  ∀ h' : Half, exp16 h' ≠ 31 →
    |num16 h - v| ≤ |num16 h' - v| ∧
    (|num16 h - v| = |num16 h' - v| → num16 h' ≠ num16 h → (man16 h).getLsbD 0 = false)

/-- `val16(h) = RNE16(v)` (40_encode R112): magnitudes from 65520 up go to the infinity of v's sign, all others to the
nearest pattern, ties to even. -/
def IsRne16 (v : ℚ) (h : Half) : Prop :=
  if 65520 ≤ |v| then val16 h = .inf (decide (v < 0)) else IsNearest16 v h

/-- POS_INF (30_encoding R66). -/
def posInf : Half := 0x7C00
/-- NEG_INF (30_encoding R66). -/
def negInf : Half := 0xFC00
/-- QNaN (30_encoding R66). -/
def qNaN : Half := 0x7FFF
/-- SNaN (30_encoding R66). -/
def sNaN : Half := 0x7DFF
/-- HALF_MIN (30_encoding R66). -/
def halfMin : Half := 0x0001
/-- HALF_NRM_MIN (30_encoding R66). -/
def halfNrmMin : Half := 0x0400
/-- HALF_MAX (30_encoding R66). -/
def halfMax : Half := 0x7BFF
/-- HALF_EPSILON (30_encoding R66). -/
def halfEpsilon : Half := 0x1400

end Sys2Proof.Machine
end

