-- ==== Sys2Proof/Safety.lean ====
section
/-! DEFINITION. What counts as a safe run: the map of results is canonical and the lines still to run are legal after the
results so far (30_encoding R73, R75). From such a state no step is refused and every step leaves such a state. -/

namespace Sys2Proof.Machine

/-- The model's invariant. -/
def State.inv (s : State) : Bool := s.results.wf && programWf s.results.kinds s.program

/-- A step that answers a next state. -/
def answersNext (o : Host.Outcome State Fault Refusal) : Bool :=
  match o with
  | .next _ => true
  | .fault _ => false
  | .refused _ => false

end Sys2Proof.Machine
end

