-- ==== Sys2Proof/Certificates/Slice0/Obligations.lean ====
section
/-! DEFINITION. The statements for the provers, from the numbered rules of spec/. -/

open Sys2Proof Sys2Proof.Machine

/-! ## The formats -/

/-- 30_encoding R60 and R61: where the fields of the two formats lie; with them 00_scope R14, what a concatenation is. -/
def Obligations.FieldsLieWhereTheFormatsSay : Prop :=
  (∀ (f : Single) (i : Nat),
    (sign32 f).getLsbD i = (decide (i < 1) && f.getLsbD (31 + i)) ∧
    (exp32 f).getLsbD i = (decide (i < 8) && f.getLsbD (23 + i)) ∧
    (man32 f).getLsbD i = (decide (i < 23) && f.getLsbD i)) ∧
  (∀ (h : Half) (i : Nat),
    (sign16 h).getLsbD i = (decide (i < 1) && h.getLsbD (15 + i)) ∧
    (exp16 h).getLsbD i = (decide (i < 5) && h.getLsbD (10 + i)) ∧
    (man16 h).getLsbD i = (decide (i < 10) && h.getLsbD i)) ∧
  (∀ f : Single, pack32 (sign32 f) (exp32 f) (man32 f) = f) ∧
  (∀ h : Half, pack16 (sign16 h) (exp16 h) (man16 h) = h)

/-- 30_encoding R62: the classes of all binary32 patterns, by the fields and by magnitude bits. -/
def Obligations.SingleClassesByPattern : Prop :=
  ∀ f : Single,
    (class32 f = .zero ↔ (exp32 f).toNat = 0 ∧ (man32 f).toNat = 0) ∧
    (class32 f = .subnormal ↔ (exp32 f).toNat = 0 ∧ (man32 f).toNat ≠ 0) ∧
    (class32 f = .normal ↔ 1 ≤ (exp32 f).toNat ∧ (exp32 f).toNat ≤ 254) ∧
    (class32 f = .infinity ↔ (exp32 f).toNat = 255 ∧ (man32 f).toNat = 0) ∧
    (class32 f = .quietNan ↔ (exp32 f).toNat = 255 ∧ (man32 f).getLsbD 22 = true) ∧
    (class32 f = .signallingNan ↔
      (exp32 f).toNat = 255 ∧ (man32 f).getLsbD 22 = false ∧ (man32 f).toNat ≠ 0) ∧
    (class32 f = .zero ↔ f.toNat % 2 ^ 31 = 0) ∧
    (class32 f = .subnormal ↔ 0x00000001 ≤ f.toNat % 2 ^ 31 ∧ f.toNat % 2 ^ 31 ≤ 0x007FFFFF) ∧
    (class32 f = .normal ↔ 0x00800000 ≤ f.toNat % 2 ^ 31 ∧ f.toNat % 2 ^ 31 ≤ 0x7F7FFFFF) ∧
    (class32 f = .infinity ↔ f.toNat % 2 ^ 31 = 0x7F800000) ∧
    (class32 f = .quietNan ↔ 0x7FC00000 ≤ f.toNat % 2 ^ 31) ∧
    (class32 f = .signallingNan ↔ 0x7F800001 ≤ f.toNat % 2 ^ 31 ∧ f.toNat % 2 ^ 31 ≤ 0x7FBFFFFF)

/-- 30_encoding R63: the classes of all 65536 binary16 patterns, by the fields and by magnitude bits, and how many patterns
each has. -/
def Obligations.HalfClassesByPattern : Prop :=
  (∀ h : Half,
    (class16 h = .zero ↔ (exp16 h).toNat = 0 ∧ (man16 h).toNat = 0) ∧
    (class16 h = .subnormal ↔ (exp16 h).toNat = 0 ∧ (man16 h).toNat ≠ 0) ∧
    (class16 h = .normal ↔ 1 ≤ (exp16 h).toNat ∧ (exp16 h).toNat ≤ 30) ∧
    (class16 h = .infinity ↔ (exp16 h).toNat = 31 ∧ (man16 h).toNat = 0) ∧
    (class16 h = .quietNan ↔ (exp16 h).toNat = 31 ∧ (man16 h).getLsbD 9 = true) ∧
    (class16 h = .signallingNan ↔
      (exp16 h).toNat = 31 ∧ (man16 h).getLsbD 9 = false ∧ (man16 h).toNat ≠ 0) ∧
    (class16 h = .zero ↔ h.toNat % 2 ^ 15 = 0) ∧
    (class16 h = .subnormal ↔ 0x0001 ≤ h.toNat % 2 ^ 15 ∧ h.toNat % 2 ^ 15 ≤ 0x03FF) ∧
    (class16 h = .normal ↔ 0x0400 ≤ h.toNat % 2 ^ 15 ∧ h.toNat % 2 ^ 15 ≤ 0x7BFF) ∧
    (class16 h = .infinity ↔ h.toNat % 2 ^ 15 = 0x7C00) ∧
    (class16 h = .quietNan ↔ 0x7E00 ≤ h.toNat % 2 ^ 15) ∧
    (class16 h = .signallingNan ↔ 0x7C01 ≤ h.toNat % 2 ^ 15 ∧ h.toNat % 2 ^ 15 ≤ 0x7DFF)) ∧
  ((List.range 65536).countP fun n => class16 (BitVec.ofNat 16 n) == .zero) = 2 ∧
  ((List.range 65536).countP fun n => class16 (BitVec.ofNat 16 n) == .subnormal) = 2046 ∧
  ((List.range 65536).countP fun n => class16 (BitVec.ofNat 16 n) == .normal) = 61440 ∧
  ((List.range 65536).countP fun n => class16 (BitVec.ofNat 16 n) == .infinity) = 2 ∧
  ((List.range 65536).countP fun n => class16 (BitVec.ofNat 16 n) == .quietNan) = 1024 ∧
  ((List.range 65536).countP fun n => class16 (BitVec.ofNat 16 n) == .signallingNan) = 1022

/-- 30_encoding R66: the named constants, with their bits, classes and values. -/
def Obligations.NamedConstantsHaveTheirValues : Prop :=
  (posInf = 0x7C00 ∧ class16 posInf = .infinity ∧ val16 posInf = .inf false) ∧
  (negInf = 0xFC00 ∧ class16 negInf = .infinity ∧ val16 negInf = .inf true) ∧
  (qNaN = 0x7FFF ∧ class16 qNaN = .quietNan ∧ val16 qNaN = .nan) ∧
  (sNaN = 0x7DFF ∧ class16 sNaN = .signallingNan ∧ val16 sNaN = .nan) ∧
  (halfMin = 0x0001 ∧ class16 halfMin = .subnormal ∧ val16 halfMin = .num (1 / 2 ^ 24)) ∧
  (halfNrmMin = 0x0400 ∧ class16 halfNrmMin = .normal ∧ val16 halfNrmMin = .num (1 / 2 ^ 14)) ∧
  (halfMax = 0x7BFF ∧ class16 halfMax = .normal ∧ val16 halfMax = .num 65504) ∧
  (halfEpsilon = 0x1400 ∧ class16 halfEpsilon = .normal ∧ val16 halfEpsilon = .num (1 / 2 ^ 10))

/-- 00_scope R17: dropping k low bits gives a multiple of 2^k closest to a, and the even one of two that are equally
close, by the pseudocode's own case split. -/
def Obligations.RneShiftRoundsToNearestEven : Prop :=
  ∀ a k : Nat, 1 ≤ k →
    (rneShift a k =
      if a % 2 ^ k > 2 ^ (k - 1) ∨ (a % 2 ^ k = 2 ^ (k - 1) ∧ a / 2 ^ k % 2 = 1) then a / 2 ^ k + 1 else a / 2 ^ k) ∧
    ∀ n : Nat,
      |(a : Int) - 2 ^ k * rneShift a k| ≤ |(a : Int) - 2 ^ k * n| ∧
      (|(a : Int) - 2 ^ k * rneShift a k| = |(a : Int) - 2 ^ k * n| → n ≠ rneShift a k → rneShift a k % 2 = 0)

/-! ## Requests -/

/-- Decoding an encoded request gives it back, for every operation and every operand value (30_encoding R64, R65, R67,
R68). -/
def Obligations.DecodeOfEncodeIsTheRequest : Prop :=
  ∀ i : Instr, i.wf = true → decodeRequest (encodeRequest i) = .ok i

/-- The other direction: every bit of a request is read (30_encoding R68). -/
def Obligations.EncodeOfDecodeIsTheBits : Prop :=
  ∀ (bits : List Bool) (i : Instr), decodeRequest bits = .ok i → encodeRequest i = bits

/-- 30_encoding R68, R71, R72: which bit strings are requests, and that op 0b11 is refused whatever follows it. -/
def Obligations.RequestsAreExactlyTheseBitStrings : Prop :=
  (∀ bits : List Bool, (∃ i, decodeRequest bits = .ok i) ↔
    (bits.take 2 = [false, false] ∧ bits.length = 34) ∨
    (bits.take 2 = [false, true] ∧ bits.length = 18) ∨
    (bits.take 2 = [true, false] ∧ bits.length = 18)) ∧
  (∀ operand : List Bool, decodeRequest (true :: true :: operand) = .error .reservedOp)

/-- 30_encoding R68 on the request words of 95_test_vectors P1 and P3, written out bit by bit. -/
def Obligations.SampleRequestWordsDecode : Prop :=
  decodeRequest
    [false, true, false, false, true, true, false, true, false, true, false, true, false, true, false, true, false, true]
    = .ok (.decode 0x3555) ∧
  decodeRequest
    [true, false, true, false, false, false, false, false, false, false, false, false, false, false, false, false, false,
      false] = .ok (.classify 0x8000) ∧
  decodeRequest
    [false, false, false, true, false, false, false, true, true, true, false, true, true, true, true, true, true, true,
      true, true, true, true, false, false, false, false, false, false, false, false, false, false, false, false]
    = .ok (.encode 0x477FF000)

/-! ## ENCODE -/

/-- 40_encode R102: an infinity gives the infinity of its sign, 0x7C00 or 0xFC00. -/
def Obligations.EncodeOfInfinity : Prop :=
  (∀ (f : Single) (s : State), exp32 f = 255 → man32 f = 0 →
    exec (.encode f) s = .next ((s.driveEnc f).file (.half (sign32 f ++ 0b11111#5 ++ 0b0000000000#10)))) ∧
  (∀ s : State, exec (.encode 0x7F800000) s = .next ((s.driveEnc 0x7F800000).file (.half 0x7C00))) ∧
  (∀ s : State, exec (.encode 0xFF800000) s = .next ((s.driveEnc 0xFF800000).file (.half 0xFC00)))

/-- 40_encode R103: a NaN gives what `ENC_NAN_MAP` says, and the default keeps the sign and the top ten payload bits,
or 1 where they are all zero. -/
def Obligations.EncodeOfNan : Prop :=
  ∀ (f : Single) (s : State), exp32 f = 255 → man32 f ≠ 0 →
    exec (.encode f) s = .next ((s.driveEnc f).file (.half (encNanOf s.params.enc (sign32 f) (man32 f)))) ∧
    (s.params.enc = .specDefault →
      exec (.encode f) s = .next ((s.driveEnc f).file (.half
        (sign32 f ++ 0b11111#5 ++
          (if f.extractLsb' 13 10 = 0 then 0b0000000001#10 else f.extractLsb' 13 10)))))

/-- 40_encode R104: every `ENC_NAN_MAP` of the model gives a NaN and the default meets all three constraints. That an
implementation's own map is a free value kept within NAN-E1 by `toNan16`, and that `toNan16` leaves every NaN as it is,
so that every NaN can be an own map's choice, is the model's form (log entry 4, DESIGN CHOICE). -/
def Obligations.EncNanMapsMeetTheirConstraints : Prop :=
  (∀ m : EncNanMap, NanE1 (encNanOf m)) ∧
  (NanE1 encNanDefault ∧ NanE2 encNanDefault ∧ NanE3 encNanDefault) ∧
  (∀ h : Half, isNan h = true → toNan16 h = h)

/-- 40_encode R106: from the rescaled exponent 31 up, the infinity of the input's sign. -/
def Obligations.EncodeOverflow : Prop :=
  ∀ (f : Single) (s : State), 143 ≤ (exp32 f).toNat → (exp32 f).toNat ≤ 254 →
    exec (.encode f) s = .next ((s.driveEnc f).file (.half (sign32 f ++ 0b11111#5 ++ 0b0000000000#10)))

/-- 40_encode R107: the normal regime keeps M[22:13] and adds 1 by the rounding rule on M[12:0]. -/
def Obligations.EncodeNormal : Prop :=
  ∀ (f : Single) (s : State), 113 ≤ (exp32 f).toNat → (exp32 f).toNat ≤ 142 →
    exec (.encode f) s = .next ((s.driveEnc f).file (.half (sign32 f ++ BitVec.ofNat 15
      (((exp32 f).toNat - 112) * 2 ^ 10 + (man32 f).toNat / 2 ^ 13 +
        (if (man32 f).toNat % 2 ^ 13 > 0x1000 ∨
            ((man32 f).toNat % 2 ^ 13 = 0x1000 ∧ (man32 f).getLsbD 13 = true) then 1 else 0)))))

/-- 40_encode R108: a carry out of the ten mantissa bits goes into the exponent field, the sum always fits, and from 65520
up to 65536 it gives infinity, just below HALF_MAX. -/
def Obligations.EncodeNormalCarry : Prop :=
  (∀ (map : EncNanFun) (f : Single), 113 ≤ (exp32 f).toNat → (exp32 f).toNat ≤ 142 →
    ((exp32 f).toNat - 112) * 2 ^ 10 + rneShift (man32 f).toNat 13 ≤ 0x7C00 ∧
    (rneShift (man32 f).toNat 13 = 1024 →
      (exp16 (encodeF32 map f)).toNat = (exp32 f).toNat - 112 + 1 ∧ man16 (encodeF32 map f) = 0)) ∧
  (∀ (map : EncNanFun) (f : Single), 0x477FF000 ≤ f.toNat % 2 ^ 31 → f.toNat % 2 ^ 31 ≤ 0x477FFFFF →
    encodeF32 map f = sign32 f ++ 0b11111#5 ++ 0b0000000000#10) ∧
  (∀ map : EncNanFun, encodeF32 map 0x477FEFFF = halfMax)

/-- 40_encode R109: the subnormal regime reinstates the implicit bit and drops 14 - e = 126 - E bits, rounding to
nearest even; at e = -10 it gives 0 for 2^-25 and 1 above. -/
def Obligations.EncodeSubnormal : Prop :=
  (∀ (f : Single) (s : State), 102 ≤ (exp32 f).toNat → (exp32 f).toNat ≤ 112 →
    exec (.encode f) s = .next ((s.driveEnc f).file (.half (sign32 f ++ BitVec.ofNat 15
      ((2 ^ 23 + (man32 f).toNat) / 2 ^ (126 - (exp32 f).toNat) +
        (if (2 ^ 23 + (man32 f).toNat) % 2 ^ (126 - (exp32 f).toNat) > 2 ^ (125 - (exp32 f).toNat) ∨
            ((2 ^ 23 + (man32 f).toNat) % 2 ^ (126 - (exp32 f).toNat) = 2 ^ (125 - (exp32 f).toNat) ∧
              (2 ^ 23 + (man32 f).toNat) / 2 ^ (126 - (exp32 f).toNat) % 2 = 1) then 1 else 0)))))) ∧
  (∀ (f : Single) (s : State), (exp32 f).toNat = 102 →
    exec (.encode f) s = .next ((s.driveEnc f).file (.half
      (sign32 f ++ (if man32 f = 0 then 0#15 else 1#15)))))

/-- 40_encode R110: the subnormal sum is at most 0x0400, reached exactly from 0x387FE000 of magnitude in its binade, where
the result is HALF_NRM_MIN with the input's sign; below e = 0 it is at most 0x200. -/
def Obligations.EncodeSubnormalCarry : Prop :=
  (∀ f : Single, (exp32 f).toNat = 112 →
    rneShift (2 ^ 23 + (man32 f).toNat) 14 ≤ 0x0400 ∧
    (rneShift (2 ^ 23 + (man32 f).toNat) 14 = 0x0400 ↔ 0xFFE000 ≤ 2 ^ 23 + (man32 f).toNat) ∧
    (0xFFE000 ≤ 2 ^ 23 + (man32 f).toNat ↔ 0x387FE000 ≤ f.toNat % 2 ^ 31)) ∧
  (∀ f : Single, 102 ≤ (exp32 f).toNat → (exp32 f).toNat ≤ 111 →
    rneShift (2 ^ 23 + (man32 f).toNat) (126 - (exp32 f).toNat) ≤ 0x200) ∧
  (∀ (f : Single) (s : State), (exp32 f).toNat = 112 → 0x387FE000 ≤ f.toNat % 2 ^ 31 →
    exec (.encode f) s = .next ((s.driveEnc f).file (.half (sign32 f ++ 0x0400#15))))

/-- 40_encode R111: below 2^-25 the zero of the input's sign, binary32 zeros and subnormals included (00_scope R19); here the
rounding of R109 would give 0 for every mantissa. -/
def Obligations.EncodeUnderflow : Prop :=
  (∀ (f : Single) (s : State), (exp32 f).toNat ≤ 101 →
    exec (.encode f) s = .next ((s.driveEnc f).file (.half (sign32 f ++ 0b000000000000000#15)))) ∧
  (∀ f : Single, class32 f = .zero ∨ class32 f = .subnormal → (exp32 f).toNat ≤ 101) ∧
  (∀ f : Single, (exp32 f).toNat ≤ 101 → rneShift (2 ^ 23 + (man32 f).toNat) (126 - (exp32 f).toNat) = 0)

/-- 40_encode R112: for every input but a NaN, ENCODE gives the binary16 pattern nearest to the input's value, ties to
even, overflow to infinity, with the input's sign. -/
def Obligations.EncodeRoundsTheValue : Prop :=
  ∀ (map : EncNanFun) (f : Single), isNan32 f = false →
    (∀ v : ℚ, val32 f = .num v → IsRne16 v (encodeF32 map f)) ∧
    (∀ b : Bool, val32 f = .inf b → val16 (encodeF32 map f) = .inf b) ∧
    sign16 (encodeF32 map f) = sign32 f

/-- 40_encode R113: the sign of every result under the default map, and under a general map. -/
def Obligations.EncodeKeepsTheSign : Prop :=
  (∀ f : Single, sign16 (encodeF32 encNanDefault f) = sign32 f) ∧
  (∀ (map : EncNanFun) (f : Single), isNan32 f = false → sign16 (encodeF32 map f) = sign32 f) ∧
  (∀ map : EncNanFun,
    (∀ f : Single, isNan32 f = true → sign16 (encodeF32 map f) = sign32 f) ↔ NanE2 map)

/-- 40_encode R114: the five ranges of inputs and the results they map to, for either sign, and that a larger magnitude
never gives a smaller one. -/
def Obligations.EncodeRangesAndMonotone : Prop :=
  (∀ (map : EncNanFun) (f : Single),
    (f.toNat % 2 ^ 31 ≤ 0x33000000 → (encodeF32 map f).toNat % 2 ^ 15 = 0) ∧
    (0x33000001 ≤ f.toNat % 2 ^ 31 → f.toNat % 2 ^ 31 ≤ 0x387FDFFF →
      0x0001 ≤ (encodeF32 map f).toNat % 2 ^ 15 ∧ (encodeF32 map f).toNat % 2 ^ 15 ≤ 0x03FF) ∧
    (0x387FE000 ≤ f.toNat % 2 ^ 31 → f.toNat % 2 ^ 31 ≤ 0x477FEFFF →
      0x0400 ≤ (encodeF32 map f).toNat % 2 ^ 15 ∧ (encodeF32 map f).toNat % 2 ^ 15 ≤ 0x7BFF) ∧
    (0x477FF000 ≤ f.toNat % 2 ^ 31 → f.toNat % 2 ^ 31 ≤ 0x7F800000 → (encodeF32 map f).toNat % 2 ^ 15 = 0x7C00) ∧
    (0x7F800001 ≤ f.toNat % 2 ^ 31 → encodeF32 map f = map (sign32 f) (man32 f)) ∧
    (f.toNat % 2 ^ 31 ≤ 0x7F800000 → sign16 (encodeF32 map f) = sign32 f)) ∧
  (∀ (map : EncNanFun) (f g : Single), sign32 f = sign32 g → isNan32 f = false → isNan32 g = false →
    f.toNat % 2 ^ 31 ≤ g.toNat % 2 ^ 31 →
    (encodeF32 map f).toNat % 2 ^ 15 ≤ (encodeF32 map g).toNat % 2 ^ 15)

/-- 40_encode R116: an input whose value a binary16 pattern of its sign has gives that pattern; so does a decoded one. -/
def Obligations.EncodeOfExactValues : Prop :=
  (∀ (map : EncNanFun) (f : Single) (h : Half),
    val32 f = val16 h → isNan h = false → sign32 f = sign16 h → encodeF32 map f = h) ∧
  (∀ (map : EncNanFun) (dmap : DecNanFun) (h : Half), isNan h = false → encodeF32 map (decodeF16 dmap h) = h)

/-- 40_encode R117 (with 90_conflicts C4): exactly these inputs round to 1.0, by pattern and by value. -/
def Obligations.EncodeToOne : Prop :=
  (∀ (map : EncNanFun) (f : Single), NanE1 map →
    (encodeF32 map f = 0x3C00 ↔ 0x3F7FF000 ≤ f.toNat ∧ f.toNat ≤ 0x3F801000)) ∧
  (∀ (f : Single) (v : ℚ), val32 f = .num v →
    ((0x3F7FF000 ≤ f.toNat ∧ f.toNat ≤ 0x3F801000) ↔ (1 - 1 / 2 ^ 12 ≤ v ∧ v ≤ 1 + 1 / 2 ^ 11))) ∧
  (∀ map : EncNanFun, encodeF32 map 0x3F7FE800 = 0x3BFF)

/-! ## DECODE -/

/-- 41_decode R141: a zero gives the zero of its sign. -/
def Obligations.DecodeOfZero : Prop :=
  (∀ (h : Half) (s : State), exp16 h = 0 → man16 h = 0 →
    exec (.decode h) s = .next ((s.driveDec h).file (.single (sign16 h ++ 0x00#8 ++ 0#23)))) ∧
  (∀ s : State, exec (.decode 0x0000) s = .next ((s.driveDec 0x0000).file (.single 0x00000000))) ∧
  (∀ s : State, exec (.decode 0x8000) s = .next ((s.driveDec 0x8000).file (.single 0x80000000)))

/-- 41_decode R142: a subnormal whose leading one is at bit p gives the normal binary32 pattern of exponent field
p + 103 with that leading one dropped, which has the value (-1)^s * M * 2^-24. -/
def Obligations.DecodeOfSubnormal : Prop :=
  ∀ (h : Half) (p : Nat) (s : State), exp16 h = 0 → 2 ^ p ≤ (man16 h).toNat → (man16 h).toNat < 2 ^ (p + 1) →
    p ≤ 9 ∧
    exec (.decode h) s = .next ((s.driveDec h).file (.single
      (sign16 h ++ BitVec.ofNat 8 (p + 103) ++ BitVec.ofNat 23 (((man16 h).toNat - 2 ^ p) * 2 ^ (23 - p))))) ∧
    val32 (sign16 h ++ BitVec.ofNat 8 (p + 103) ++ BitVec.ofNat 23 (((man16 h).toNat - 2 ^ p) * 2 ^ (23 - p)))
      = .num ((if sign16 h = 1 then -1 else 1) * (man16 h).toNat / 2 ^ 24)

/-- 41_decode R143: a normal gives the exponent field plus 112, and its mantissa bits at f[22:13]. -/
def Obligations.DecodeOfNormal : Prop :=
  ∀ (h : Half) (s : State), 1 ≤ (exp16 h).toNat → (exp16 h).toNat ≤ 30 →
    exec (.decode h) s = .next ((s.driveDec h).file (.single
      (sign16 h ++ BitVec.ofNat 8 ((exp16 h).toNat + 112) ++ (man16 h ++ 0b0000000000000#13))))

/-- 41_decode R144: an infinity gives the infinity of its sign. -/
def Obligations.DecodeOfInfinity : Prop :=
  (∀ (h : Half) (s : State), exp16 h = 31 → man16 h = 0 →
    exec (.decode h) s = .next ((s.driveDec h).file (.single (sign16 h ++ 0xFF#8 ++ 0#23)))) ∧
  (∀ s : State, exec (.decode 0x7C00) s = .next ((s.driveDec 0x7C00).file (.single 0x7F800000))) ∧
  (∀ s : State, exec (.decode 0xFC00) s = .next ((s.driveDec 0xFC00).file (.single 0xFF800000)))

/-- 41_decode R145 and R146: a NaN gives what `DEC_NAN_MAP` says, and the default keeps sign, quiet bit and payload. -/
def Obligations.DecodeOfNan : Prop :=
  ∀ (h : Half) (s : State), exp16 h = 31 → man16 h ≠ 0 →
    exec (.decode h) s = .next ((s.driveDec h).file (.single (decNanOf s.params.dec (sign16 h) (man16 h)))) ∧
    (s.params.dec = .specDefault →
      exec (.decode h) s = .next ((s.driveDec h).file (.single
        (sign16 h ++ 0xFF#8 ++ (man16 h ++ 0b0000000000000#13)))))

/-- 41_decode R147: every `DEC_NAN_MAP` of the model gives a NaN and the default meets all three constraints. That an
implementation's own map is a free value kept within NAN-D1 by `toNan32`, and that `toNan32` leaves every NaN as it is,
so that every NaN can be an own map's choice, is the model's form (log entry 4, DESIGN CHOICE). -/
def Obligations.DecNanMapsMeetTheirConstraints : Prop :=
  (∀ m : DecNanMap, NanD1 (decNanOf m)) ∧
  (NanD1 decNanDefault ∧ NanD2 decNanDefault ∧ NanD3 decNanDefault) ∧
  (∀ f : Single, isNan32 f = true → toNan32 f = f)

/-- 41_decode R148: DECODE is exact, and keeps the sign, for every input but a NaN. -/
def Obligations.DecodeIsExact : Prop :=
  ∀ (map : DecNanFun) (h : Half), isNan h = false →
    val32 (decodeF16 map h) = val16 h ∧ sign32 (decodeF16 map h) = sign16 h

/-- 41_decode R149: the class of each result, never a binary32 subnormal. -/
def Obligations.DecodeClasses : Prop :=
  ∀ (map : DecNanFun) (h : Half), NanD1 map →
    (class16 h = .zero → class32 (decodeF16 map h) = .zero) ∧
    (class16 h = .subnormal → class32 (decodeF16 map h) = .normal ∧
      103 ≤ (exp32 (decodeF16 map h)).toNat ∧ (exp32 (decodeF16 map h)).toNat ≤ 112) ∧
    (class16 h = .normal → class32 (decodeF16 map h) = .normal ∧
      113 ≤ (exp32 (decodeF16 map h)).toNat ∧ (exp32 (decodeF16 map h)).toNat ≤ 142) ∧
    (class16 h = .infinity → class32 (decodeF16 map h) = .infinity) ∧
    (isNan h = true → isNan32 (decodeF16 map h) = true) ∧
    class32 (decodeF16 map h) ≠ .subnormal

/-- 41_decode R150: decode, then encode. With the default maps it is the identity on all 65536 patterns; with any maps on
every pattern but a NaN; and a NaN stays some NaN. -/
def Obligations.EncodeOfDecodeIsThePattern : Prop :=
  (∀ h : Half, encodeF32 encNanDefault (decodeF16 decNanDefault h) = h) ∧
  (∀ (emap : EncNanFun) (dmap : DecNanFun) (h : Half), isNan h = false → encodeF32 emap (decodeF16 dmap h) = h) ∧
  (∀ (emap : EncNanFun) (dmap : DecNanFun) (h : Half), NanE1 emap → NanD1 dmap → isNan h = true →
    isNan (encodeF32 emap (decodeF16 dmap h)) = true)

/-- 41_decode R151: encode, then decode, is the identity on what was decoded from a pattern but a NaN. -/
def Obligations.DecodeOfEncodeIsThePattern : Prop :=
  ∀ (emap : EncNanFun) (dmap : DecNanFun) (f : Single),
    (∃ h : Half, isNan h = false ∧ f = decodeF16 dmap h) → decodeF16 dmap (encodeF32 emap f) = f

/-! ## CLASSIFY -/

/-- 42_classify R171 to R176: each output bit, by the fields and by the patterns the rule lists. -/
def Obligations.ClassifyBits : Prop :=
  ∀ (h : Half) (s : State), ∃ c : ClassVec,
    exec (.classify h) s = .next ((s.driveCls h).file (.cls c)) ∧
    (c.getLsbD 0 = true ↔ exp16 h = 0 ∧ man16 h = 0) ∧
    (c.getLsbD 0 = true ↔ h = 0x0000 ∨ h = 0x8000) ∧
    (c.getLsbD 1 = true ↔ exp16 h = 0 ∧ man16 h ≠ 0) ∧
    (c.getLsbD 1 = true ↔ 0x0001 ≤ h.toNat ∧ h.toNat ≤ 0x03FF ∨ 0x8001 ≤ h.toNat ∧ h.toNat ≤ 0x83FF) ∧
    (c.getLsbD 2 = true ↔ 1 ≤ (exp16 h).toNat ∧ (exp16 h).toNat ≤ 30) ∧
    (c.getLsbD 2 = true ↔ 0x0400 ≤ h.toNat ∧ h.toNat ≤ 0x7BFF ∨ 0x8400 ≤ h.toNat ∧ h.toNat ≤ 0xFBFF) ∧
    (c.getLsbD 3 = true ↔ exp16 h = 31 ∧ man16 h = 0) ∧
    (c.getLsbD 3 = true ↔ h = 0x7C00 ∨ h = 0xFC00) ∧
    (c.getLsbD 4 = true ↔ exp16 h = 31 ∧ man16 h ≠ 0) ∧
    (c.getLsbD 4 = true ↔ 0x7C01 ≤ h.toNat ∧ h.toNat ≤ 0x7FFF ∨ 0xFC01 ≤ h.toNat) ∧
    (c.getLsbD 5 = true ↔ h = 0x8000)

/-- 42_classify R177: exactly one of c[0] to c[4] is 1, c[5] implies c[0], and the counts over all patterns. -/
def Obligations.ClassifyIsOneHot : Prop :=
  (∀ h : Half,
    ((List.range 5).countP fun i => (classifyF16 h).getLsbD i) = 1 ∧
    ((classifyF16 h).getLsbD 5 = true → (classifyF16 h).getLsbD 0 = true)) ∧
  ((List.range 65536).countP fun n => (classifyF16 (BitVec.ofNat 16 n)).getLsbD 0) = 2 ∧
  ((List.range 65536).countP fun n => (classifyF16 (BitVec.ofNat 16 n)).getLsbD 1) = 2046 ∧
  ((List.range 65536).countP fun n => (classifyF16 (BitVec.ofNat 16 n)).getLsbD 2) = 61440 ∧
  ((List.range 65536).countP fun n => (classifyF16 (BitVec.ofNat 16 n)).getLsbD 3) = 2 ∧
  ((List.range 65536).countP fun n => (classifyF16 (BitVec.ofNat 16 n)).getLsbD 4) = 2046 ∧
  ((List.range 65536).countP fun n => (classifyF16 (BitVec.ofNat 16 n)).getLsbD 5) = 1

/-- 42_classify R178: the sign does not matter to c[0] to c[4]. -/
def Obligations.ClassifyIgnoresTheSign : Prop :=
  ∀ h : Half, (classifyF16 h).extractLsb' 0 5 = (classifyF16 (h ^^^ 0x8000)).extractLsb' 0 5

/-- 42_classify R179: the class of the pattern is the class of the decoded value, and no parameter matters to it. -/
def Obligations.ClassifyAgreesWithDecode : Prop :=
  (∀ (map : DecNanFun) (h : Half), NanD1 map →
    ((classifyF16 h).getLsbD 0 = true ↔ class32 (decodeF16 map h) = .zero) ∧
    ((classifyF16 h).getLsbD 1 = true ∨ (classifyF16 h).getLsbD 2 = true ↔
      class32 (decodeF16 map h) = .subnormal ∨ class32 (decodeF16 map h) = .normal) ∧
    ((classifyF16 h).getLsbD 3 = true ↔ class32 (decodeF16 map h) = .infinity) ∧
    ((classifyF16 h).getLsbD 4 = true ↔ isNan32 (decodeF16 map h) = true)) ∧
  (∀ (h : Half) (s : State) (p : Params),
    exec (.classify h) { s with params := p } =
      .next { (s.driveCls h).file (.cls (classifyF16 h)) with params := p })

/-! ## The machine -/

/-- 10_state R28 to R30: every output is its unit's function of its unit's current input, in every state. That the
outputs of an undriven unit are `none` is the model's choice (log entry 1, DESIGN CHOICE): R33 gives them no value, and
93 U13 leaves open what a model shows. -/
def Obligations.OutputsFollowInputs : Prop :=
  ∀ s : State,
    (∀ f, s.encF32In = some f → s.encHOut = some (encodeF32 (encNanOf s.params.enc) f)) ∧
    (∀ h, s.decHIn = some h → s.decF32Out = some (decodeF16 (decNanOf s.params.dec) h)) ∧
    (∀ h, s.clsHIn = some h →
      s.clsIsZero = some (BitVec.ofBool ((classifyF16 h).getLsbD 0)) ∧
      s.clsIsSubnormal = some (BitVec.ofBool ((classifyF16 h).getLsbD 1)) ∧
      s.clsIsNormal = some (BitVec.ofBool ((classifyF16 h).getLsbD 2)) ∧
      s.clsIsInfinite = some (BitVec.ofBool ((classifyF16 h).getLsbD 3)) ∧
      s.clsIsNan = some (BitVec.ofBool ((classifyF16 h).getLsbD 4)) ∧
      s.clsIsNegZero = some (BitVec.ofBool ((classifyF16 h).getLsbD 5))) ∧
    (s.encF32In = none → s.encHOut = none) ∧
    (s.decHIn = none → s.decF32Out = none) ∧
    (s.clsHIn = none → s.clsIsZero = none ∧ s.clsIsSubnormal = none ∧ s.clsIsNormal = none ∧
      s.clsIsInfinite = none ∧ s.clsIsNan = none ∧ s.clsIsNegZero = none)

/-- After reset no input is driven, and so, as 10_state R33 and 70_reset R230 have it, no output has a value. That no input
is driven yet is the model's choice (log entry 14, DESIGN CHOICE), as are that no program is loaded, that no result stands
and that the NaN maps are the spec's defaults (log entries 2 and 3). -/
def Obligations.ResetDrivesNothing : Prop :=
  (State.reset.encF32In = none ∧ State.reset.decHIn = none ∧ State.reset.clsHIn = none) ∧
  (State.reset.encHOut = none ∧ State.reset.decF32Out = none ∧ State.reset.clsIsZero = none ∧
    State.reset.clsIsSubnormal = none ∧ State.reset.clsIsNormal = none ∧ State.reset.clsIsInfinite = none ∧
    State.reset.clsIsNan = none ∧ State.reset.clsIsNegZero = none) ∧
  (State.reset.program = [] ∧ State.reset.results = [] ∧
    encNanOf State.reset.params.enc = encNanDefault ∧ decNanOf State.reset.params.dec = decNanDefault)

/-- A step runs the request the next line asks for, under that line's label, with the line gone from the program
(30_encoding R73, R75); a raw request is the one its bits decode to (R68). -/
def Obligations.StepRunsTheNextLine : Prop :=
  (∀ (s : State) (l : Line) (rest : List Line) (i : Instr) (select : Option Predicate),
    s.program = l :: rest → s.resolve l = .ok (i, select) →
    step s = exec i (s.beginLine l.label select rest)) ∧
  (∀ (s : State) (label : Label) (bits : List Bool) (rest : List Line) (i : Instr),
    s.program = { label := label, op := .request bits } :: rest → s.acceptsLabel label = true →
    decodeRequest bits = .ok i → i.wf = true →
    step s = exec i (s.beginLine label none rest))

/-- A program ends after its last line: with no line left a step changes nothing (30_encoding R75; that it answers a next
state and does not stop is the model's choice, log entry 7). -/
def Obligations.EndedProgramStays : Prop :=
  ∀ s : State, s.program = [] → step s = .next s

/-- A raw request placed by `withFetchWord` is the very next evaluation, in every state (the model's choice of how a
request comes to run, log entry 5). -/
def Obligations.PlacedRequestIsTheNextEvaluation : Prop :=
  ∀ (s : State) (nbits w : Nat) (i : Instr), decodeTableWord nbits w = some i →
    ∃ label : Label, s.acceptsLabel label = true ∧
      step (s.withFetchWord nbits w) = exec i (s.beginLine label none (s.program.drop 1))

/-- 60_exceptions R200: no evaluation raises anything, for any input, in any state; nor does any step. -/
def Obligations.NothingRaises : Prop :=
  (∀ (i : Instr) (s : State), ∃ t, exec i s = .next t) ∧ (∀ (s : State) (e : Fault), step s ≠ .fault e)

/-- 60_exceptions R202 (and 30_encoding R71): op 0b11 is refused at the boundary, whatever follows it, and every request
of the three operations has a next state. -/
def Obligations.OnlyTheReservedOpIsRefused : Prop :=
  (∀ (s : State) (label : Label) (operand : List Bool) (rest : List Line),
    s.program = { label := label, op := .request (true :: true :: operand) } :: rest → s.acceptsLabel label = true →
    step s = .refused (.noRequest .reservedOp)) ∧
  (∀ (s : State) (label : Label) (i : Instr) (rest : List Line),
    s.program = { label := label, op := .request (encodeRequest i) } :: rest → s.acceptsLabel label = true →
    ∃ t, step s = .next t)

/-- 30_encoding R67: evaluating an operation is driving its unit's input and reading its unit's output, which is filed under
the line's label (R75). -/
def Obligations.EvaluationDrivesAndReads : Prop :=
  (∀ (f : Single) (s : State), ∃ t h, exec (.encode f) s = .next t ∧ t.encF32In = some f ∧ t.encHOut = some h ∧
    t.results.get s.target.label = some (s.target.pick (.half h))) ∧
  (∀ (h : Half) (s : State), ∃ t f, exec (.decode h) s = .next t ∧ t.decHIn = some h ∧ t.decF32Out = some f ∧
    t.results.get s.target.label = some (s.target.pick (.single f))) ∧
  (∀ (h : Half) (s : State), ∃ t c, exec (.classify h) s = .next t ∧ t.clsHIn = some h ∧
    (∀ i, t.clsBit i = some (BitVec.extractLsb' i 1 c)) ∧
    t.results.get s.target.label = some (s.target.pick (.cls c)))

/-- The frame of ENCODE, DECODE and CLASSIFY (10_state R31: the units share no port and no signal; 70_reset R231: nothing
sets a parameter at run time): an evaluation changes its own unit's input, hence its own unit's outputs, and the one
result it files. That an idle unit's input stays driven with its last value, so that its outputs stay, is the model's
choice (log entry 13, DESIGN CHOICE). -/
def Obligations.EvaluationFrame : Prop :=
  ∀ (i : Instr) (s t : State), exec i s = .next t →
    t.params = s.params ∧ t.program = s.program ∧ t.target = s.target ∧
    (∀ k : Label, k ≠ s.target.label → t.results.get k = s.results.get k) ∧
    ((∀ f, i ≠ .encode f) → t.encF32In = s.encF32In ∧ t.encHOut = s.encHOut) ∧
    ((∀ h, i ≠ .decode h) → t.decHIn = s.decHIn ∧ t.decF32Out = s.decF32Out) ∧
    ((∀ h, i ≠ .classify h) → t.clsHIn = s.clsHIn ∧ ∀ b, t.clsBit b = s.clsBit b)

/-- 10_state R27: two evaluations on equal inputs file equal results, whatever was evaluated before and whatever the other
units are doing. -/
def Obligations.EqualInputsEqualResults : Prop :=
  ∀ (i : Instr) (s s' t t' : State), s.params = s'.params → s.target = s'.target →
    exec i s = .next t → exec i s' = .next t' →
    t.results.get s.target.label = t'.results.get s'.target.label ∧ (t.results.get s.target.label).isSome = true

/-- 20_memory R43: evaluating a unit twice on the same input changes nothing the second time, the second evaluation filing
under the first one's label. -/
def Obligations.EvaluationIsIdempotent : Prop :=
  ∀ (i : Instr) (s t : State), exec i s = .next t → exec i t = .next t

/-- 20_memory R46, 70_reset R234: two evaluations filed under different labels give the same results in either order, and
the same ports where their units differ; that the ports hold what they were driven with is the model's choice (log
entry 13, DESIGN CHOICE). -/
def Obligations.EvaluationsCommute : Prop :=
  ∀ (s ta tab tb tba : State) (i j : Instr) (a b : Label) (p q : Option Predicate) (rest : List Line),
    a ≠ b →
    exec i (s.beginLine a p rest) = .next ta → exec j (ta.beginLine b q rest) = .next tab →
    exec j (s.beginLine b q rest) = .next tb → exec i (tb.beginLine a p rest) = .next tba →
    tab.results = tba.results ∧
    (i.op ≠ j.op → tab.encF32In = tba.encF32In ∧ tab.decHIn = tba.decHIn ∧ tab.clsHIn = tba.clsHIn ∧
      tab.encHOut = tba.encHOut ∧ tab.decF32Out = tba.decF32Out ∧ ∀ n, tab.clsBit n = tba.clsBit n)

/-- 70_reset R231: no step sets the NaN maps. -/
def Obligations.StepKeepsTheParameters : Prop :=
  ∀ s t : State, step s = .next t → t.params = s.params

/-- 30_encoding R73, R75: from a state whose results are canonical and whose remaining lines are legal, every step leaves
such a state. -/
def Obligations.StepKeepsTheProgramLegal : Prop :=
  ∀ s t : State, s.inv = true → step s = .next t → t.inv = true

/-- From such a state no step is refused, and a step takes exactly the next line: a legal program runs to its end. -/
def Obligations.LegalLinesAreNeverRefused : Prop :=
  ∀ s : State, s.inv = true → ∃ t, step s = .next t ∧ t.program = s.program.drop 1

/-- The machine after reset is such a state, and so is one into which a legal program is loaded. -/
def Obligations.ResetAndLoadAreLegal : Prop :=
  State.reset.inv = true ∧
  (∀ (s : State) (p : List Line), programWf [] p = true → (s.load p).inv = true)

/-- 30_encoding R73: the result of DECODE may feed ENCODE, the result of ENCODE may feed DECODE or CLASSIFY, nothing else
may feed anything; a literal operand is evaluated as it stands; and labels increase. The refusals by the names operandWidth,
operandNotDefined and labelNotIncreasing are the model's choice (log entry 10, DEDUCED): the spec says which lines are
legal and itself refuses only op 0b11. -/
def Obligations.OperandsFeedWhereTheirWidthFits : Prop :=
  (∀ (s : State) (l k : Label) (rest : List Line),
    s.program = { label := l, op := .encode (.ref k) } :: rest → s.acceptsLabel l = true →
    (∀ f, s.results.get k = some (.single f) → step s = exec (.encode f) (s.beginLine l none rest)) ∧
    (∀ r, s.results.get k = some r → r.kind ≠ .single → step s = .refused (.operandWidth k)) ∧
    (s.results.get k = none → step s = .refused (.operandNotDefined k))) ∧
  (∀ (s : State) (l k : Label) (rest : List Line),
    s.program = { label := l, op := .decode (.ref k) } :: rest → s.acceptsLabel l = true →
    (∀ h, s.results.get k = some (.half h) → step s = exec (.decode h) (s.beginLine l none rest)) ∧
    (∀ r, s.results.get k = some r → r.kind ≠ .half → step s = .refused (.operandWidth k)) ∧
    (s.results.get k = none → step s = .refused (.operandNotDefined k))) ∧
  (∀ (s : State) (l k : Label) (rest : List Line),
    s.program = { label := l, op := .classify (.ref k) } :: rest → s.acceptsLabel l = true →
    (∀ h, s.results.get k = some (.half h) → step s = exec (.classify h) (s.beginLine l none rest)) ∧
    (∀ r, s.results.get k = some r → r.kind ≠ .half → step s = .refused (.operandWidth k)) ∧
    (s.results.get k = none → step s = .refused (.operandNotDefined k))) ∧
  (∀ (s : State) (l k : Label) (p : Predicate) (rest : List Line),
    s.program = { label := l, op := .predicate p (.ref k) } :: rest → s.acceptsLabel l = true →
    (∀ h, s.results.get k = some (.half h) → step s = exec (.classify h) (s.beginLine l (some p) rest)) ∧
    (∀ r, s.results.get k = some r → r.kind ≠ .half → step s = .refused (.operandWidth k)) ∧
    (s.results.get k = none → step s = .refused (.operandNotDefined k))) ∧
  (∀ (s : State) (l : Label) (rest : List Line), s.acceptsLabel l = true →
    (∀ f, s.program = { label := l, op := .encode (.lit f) } :: rest →
      step s = exec (.encode f) (s.beginLine l none rest)) ∧
    (∀ h, s.program = { label := l, op := .decode (.lit h) } :: rest →
      step s = exec (.decode h) (s.beginLine l none rest)) ∧
    (∀ h, s.program = { label := l, op := .classify (.lit h) } :: rest →
      step s = exec (.classify h) (s.beginLine l none rest)) ∧
    (∀ p h, s.program = { label := l, op := .predicate p (.lit h) } :: rest →
      step s = exec (.classify h) (s.beginLine l (some p) rest))) ∧
  (∀ (s : State) (l : Line) (rest : List Line), s.program = l :: rest → s.acceptsLabel l.label = false →
    step s = .refused (.labelNotIncreasing l.label))

/-- 30_encoding R74: each predicate files its bit of CLASSIFY, and ROUNDTRIP16 files ENCODE of DECODE, of a literal or of
ENCODE's result under `%<k>`. The label `.temp n` of ROUNDTRIP16's first half, that its result stands in the map, and
that a predicate's line files the one bit are the model's choice (log entry 6, DESIGN CHOICE: R74 does not number
`%m`). -/
def Obligations.PseudoOperationsExpand : Prop :=
  (∀ (s : State) (l : Label) (x : Operand 16) (h : Half) (rest : List Line) (p : Predicate) (b : Nat),
    s.program = { label := l, op := .predicate p x } :: rest → s.acceptsLabel l = true →
    (x = .lit h ∨ ∃ k, x = .ref k ∧ s.results.get k = some (.half h)) →
    (p, b) ∈ [(Predicate.isZero, 0), (.isDenormalized, 1), (.isNormal, 2), (.isInfinite, 3), (.isNaN, 4),
      (.isNegativeZero, 5)] →
    ∃ t, step s = .next t ∧ t.program = rest ∧
      t.results.get l = some (.bit (BitVec.ofBool ((classifyF16 h).getLsbD b)))) ∧
  (∀ (s : State) (n : Nat) (x : Operand 16) (h : Half) (rest : List Line),
    s.program = expand (.roundtrip16 n x) ++ rest → s.acceptsLabel (.temp n) = true →
    (x = .lit h ∨ ∃ k, x = .ref k ∧ s.results.get k = some (.half h)) →
    ∃ t u, step s = .next t ∧ step t = .next u ∧ u.program = rest ∧
      t.results.get (.temp n) = some (.single (decodeF16 (decNanOf s.params.dec) h)) ∧
      u.results.get (.line n) = some (.half (encodeF32 (encNanOf s.params.enc) (decodeF16 (decNanOf s.params.dec) h))))

/-- 30_encoding R73, R74: the text of every statement a user can write, of each mnemonic, spelling and operand form, with a
comment or without, is read as that statement; the text of a legal program assembles to its lines and that of an illegal
one is refused; and whatever else is accepted is legal and can be loaded. The white space and the case of the digits that
`printAs` writes are one choice among those the assembler reads (log entry 6, DESIGN CHOICE). -/
def Obligations.PrintedProgramsAssembleBack : Prop :=
  (∀ (st : Stmt) (name comment : List Char), writable st = true → name ∈ spellings st →
    parseLine (printAs name st) = .ok [st] ∧
    parseLine (printAs name st ++ '-' :: '-' :: comment) = .ok [st] ∧
    parseLine (printAs name st ++ ' ' :: '-' :: '-' :: comment) = .ok [st]) ∧
  (∀ p : List Stmt, (∀ st ∈ p, writable st = true) → programWf [] (p.flatMap expand) = true →
    assemble (printProgram p) = .ok (p.flatMap expand)) ∧
  (∀ p : List Stmt, (∀ st ∈ p, writable st = true) → programWf [] (p.flatMap expand) = false →
    assemble (printProgram p) = .error .illegalProgram) ∧
  (∀ (text : List Char) (p : List Line) (s : State), assemble text = .ok p →
    programWf [] p = true ∧ (s.load p).inv = true)

/-- 20_memory R41: the two byte orders of the host's image, and that loading what was stored gives it back. -/
def Obligations.HostImageOfAHalf : Prop :=
  (∀ h : Half, (hostStore .little h).1 = h.extractLsb' 0 8 ∧ (hostStore .little h).2 = h.extractLsb' 8 8 ∧
    (hostStore .big h).1 = h.extractLsb' 8 8 ∧ (hostStore .big h).2 = h.extractLsb' 0 8) ∧
  (∀ (o : ByteOrder) (h : Half), hostLoad o (hostStore o h) = h) ∧
  (∀ (o : ByteOrder) (b : Byte × Byte), hostStore o (hostLoad o b) = b)

/-- 95_test_vectors 2.5: the canonical encoder map and the forced-quiet decoder map meet what they are said to meet. -/
def Obligations.SampleNanMapsMeetAsListed : Prop :=
  (NanE1 encNanCanonical ∧ NanE3 encNanCanonical ∧ ¬ NanE2 encNanCanonical) ∧
  (NanD1 decNanForcedQuiet ∧ NanD2 decNanForcedQuiet ∧ ¬ NanD3 decNanForcedQuiet) ∧
  (∀ s : State, s.params.enc = .canonical → s.params.dec = .specDefault →
    ∀ t, exec (.decode 0x7DFF) s = .next t →
      t.decF32Out = some 0x7FBFE000 ∧
      exec (.encode 0x7FBFE000) t = .next ((t.driveEnc 0x7FBFE000).file (.half 0x7E00)))
end

