-- ==== Sys2Proof/Laws/Assembly.lean ====
section
/-! SUPPORT. The text of programs: what the words, labels, operands and lines that `printAs` writes are read as
(30_encoding R73). -/

namespace Sys2Proof.Machine

/-- A word ends at a blank. -/
theorem wordsOf_append_blank {w : List Char} (hw : w ≠ []) (hb : ∀ c ∈ w, isBlank c = false) (rest : List Char) :
    wordsOf (w ++ ' ' :: rest) = w :: wordsOf rest := by
  induction w with
  | nil => exact absurd rfl hw
  | cons c t ih =>
    have hc := hb c (by simp)
    cases t with
    | nil =>
      have hsp : isBlank ' ' = true := by decide
      simp [wordsOf, hc, hsp]
    | cons d u =>
      have hd := hb d (by simp)
      have := ih (by simp) fun x hx => hb x (by simp [hx])
      rw [List.cons_append] at this ⊢
      rw [List.cons_append, wordsOf.eq_def]
      simp [hc, hd, this]

/-- A word at the end of a line. -/
theorem wordsOf_word {w : List Char} (hw : w ≠ []) (hb : ∀ c ∈ w, isBlank c = false) : wordsOf w = [w] := by
  induction w with
  | nil => exact absurd rfl hw
  | cons c t ih =>
    have hc := hb c (by simp)
    cases t with
    | nil => simp [wordsOf, hc]
    | cons d u =>
      have hd := hb d (by simp)
      have := ih (by simp) fun x hx => hb x (by simp [hx])
      rw [wordsOf.eq_def]
      simp [hc, hd, this]

/-- A text without `-` has no comment. -/
theorem dropComment_none {t : List Char} (h : '-' ∉ t) : dropComment t = t := by
  induction t with
  | nil => rfl
  | cons c t ih =>
    simp only [List.mem_cons, not_or] at h
    rw [dropComment]
    · rw [ih h.2]
    · rintro rest rfl; exact absurd rfl h.1

/-- A comment begins at the first `--`. -/
theorem dropComment_append {t : List Char} (h : '-' ∉ t) (comment : List Char) :
    dropComment (t ++ '-' :: '-' :: comment) = t := by
  induction t with
  | nil => rfl
  | cons c t ih =>
    simp only [List.mem_cons, not_or] at h
    rw [List.cons_append, dropComment]
    · rw [ih h.2]
    · rintro rest rfl; exact absurd rfl h.1

/-- A line ends at its line feed. -/
theorem linesOf_append {t : List Char} (h : '\n' ∉ t) (rest : List Char) :
    linesOf (t ++ '\n' :: rest) = t :: linesOf rest := by
  induction t with
  | nil => simp [linesOf]
  | cons c t ih =>
    simp only [List.mem_cons, not_or] at h
    have hc : (c == '\n') = false := by simpa using Ne.symm h.1
    rw [List.cons_append, linesOf, ih h.2]
    simp [hc]

/-- The characters of words: what no blank, comment sign, line feed or `=` is. -/
def isPlain (c : Char) : Bool := !isBlank c && c != '-' && c != '\n'

theorem hexDigit_hexChar {d : Nat} (h : d < 16) :
    hexDigit (hexChar d) = some d ∧ isPlain (hexChar d) = true ∧ hexChar d ≠ '%' := by
  revert d; decide

theorem decDigit_of_isDigit {c : Char} (h : c.isDigit = true) :
    decDigit c = some (c.toNat - '0'.toNat) ∧ isPlain c = true := by
  have hc : 48 ≤ c.toNat ∧ c.toNat ≤ 57 := by
    simpa [Char.isDigit, UInt32.le_iff_toNat_le] using h
  refine ⟨by simp [decDigit, hc], ?_⟩
  have hne : ∀ d : Char, ¬ (48 ≤ d.toNat ∧ d.toNat ≤ 57) → c ≠ d := by rintro d hd rfl; exact hd hc
  simp [isPlain, isBlank, hne ' ' (by decide), hne '\t' (by decide), hne '\r' (by decide), hne '-' (by decide),
    hne '\n' (by decide)]

theorem length_hexOf (n x : Nat) : (hexOf n x).length = n := by
  induction n with
  | zero => rfl
  | succ n ih => simp [hexOf, ih]

theorem plain_hexOf (n x : Nat) : ∀ c ∈ hexOf n x, isPlain c = true := by
  induction n with
  | zero => simp [hexOf]
  | succ n ih =>
    intro c hc
    rcases List.mem_cons.mp hc with rfl | hc
    · exact (hexDigit_hexChar (Nat.mod_lt _ (by decide))).2.1
    · exact ih c hc

/-- Hexadecimal digits are read as the number they write. -/
theorem numberFrom_hexOf (n x acc : Nat) :
    numberFrom hexDigit 16 acc (hexOf n x) = some (acc * 16 ^ n + x % 16 ^ n) := by
  induction n generalizing acc with
  | zero => simp [hexOf, numberFrom, Nat.mod_one]
  | succ n ih =>
    rw [hexOf, numberFrom, (hexDigit_hexChar (Nat.mod_lt _ (by decide))).1]
    simp only [ih, Nat.pow_succ, Nat.mod_mul, Option.some.injEq]
    ring

theorem numberFrom_digits {l : List Char} (h : ∀ c ∈ l, c.isDigit = true) (acc : Nat) :
    numberFrom decDigit 10 acc l = some (Nat.ofDigitChars 10 l acc) := by
  induction l generalizing acc with
  | nil => simp [numberFrom]
  | cons c t ih =>
    rw [numberFrom, (decDigit_of_isDigit (h c (by simp))).1]
    simp only [ih fun d hd => h d (by simp [hd]), Nat.ofDigitChars_cons, Nat.mul_comm]

theorem isDigit_toDigits (n : Nat) : ∀ c ∈ Nat.toDigits 10 n, c.isDigit = true :=
  fun _ hc => Nat.isDigit_of_mem_toDigits (by decide) (by decide) hc

theorem plain_printLabel (n : Nat) : ∀ c ∈ printLabel n, isPlain c = true := by
  intro c hc
  rcases List.mem_cons.mp hc with rfl | hc
  · decide
  · exact (decDigit_of_isDigit (isDigit_toDigits n c hc)).2

/-- A label is read as its number. -/
theorem parseLabel_printLabel (n : Nat) : parseLabel (printLabel n) = some n := by
  have h := numberFrom_digits (isDigit_toDigits n) 0
  rw [Nat.ofDigitChars_toDigits (by decide) (by decide)] at h
  cases hd : Nat.toDigits 10 n with
  | nil => exact absurd hd (Nat.toDigits_ne_nil)
  | cons d rest => rw [hd] at h; simpa [printLabel, hd, parseLabel] using h

/-- Hexadecimal digits are no label. -/
theorem parseLabel_hexOf (n x : Nat) : parseLabel (hexOf n x) = none := by
  cases n with
  | zero => rfl
  | succ n =>
    have h := (hexDigit_hexChar (d := x / 16 ^ n % 16) (Nat.mod_lt _ (by decide))).2.2
    rw [hexOf, parseLabel]
    rintro d rest heq
    exact h (List.cons.inj heq).1

/-- An operand a user can write is read as itself, and its text is one word. -/
theorem parseOperand_printOperand {w : Nat} (hw : w = 16 ∨ w = 32) {x : Operand w} (hx : writableOperand x = true) :
    parseOperand w (printOperand x) = some x ∧ printOperand x ≠ [] ∧ ∀ c ∈ printOperand x, isPlain c = true := by
  match x, hx with
  | .lit v, _ =>
    have h4 : w / 4 * 4 = w := by omega
    have hpow : 16 ^ (w / 4) = 2 ^ w := by
      rw [show (16 : Nat) = 2 ^ 4 by decide, ← Nat.pow_mul, Nat.mul_comm, h4]
    refine ⟨?_, ?_, plain_hexOf _ _⟩
    · simp [printOperand, parseOperand, parseLabel_hexOf, length_hexOf, h4, numberFrom_hexOf, hpow, Nat.mod_eq_of_lt v.isLt]
    · intro h
      have := congrArg List.length h
      simp [printOperand, length_hexOf] at this
      omega
  | .ref (.line k), _ =>
    exact ⟨by simp [printOperand, parseOperand, parseLabel_printLabel], by simp [printOperand, printLabel],
      plain_printLabel k⟩

end Sys2Proof.Machine
end

