-- ==== Sys2Proof/Laws/Bits.lean ====
section
/-! SUPPORT. Bits, most significant first, and the numbers they write (30_encoding R68). -/

namespace Sys2Proof

theorem length_bitsOf (n x : Nat) : (bitsOf n x).length = n := by
  induction n with
  | zero => rfl
  | succ n ih => simp [bitsOf, ih]

/-- Reading back the bits of a number gives the number, up to the bits written. -/
theorem natOfBits_bitsOf (n x : Nat) : natOfBits (bitsOf n x) = x % 2 ^ n := by
  induction n with
  | zero => simp [bitsOf, natOfBits, Nat.mod_one]
  | succ n ih =>
    rw [bitsOf, natOfBits, length_bitsOf, ih, Nat.pow_succ, Nat.mod_mul, Nat.testBit_eq_decide_div_mod_eq]
    rcases Nat.mod_two_eq_zero_or_one (x / 2 ^ n) with h | h <;> (simp [h]; try omega)

theorem natOfBits_lt (bits : List Bool) : natOfBits bits < 2 ^ bits.length := by
  induction bits with
  | nil => simp [natOfBits]
  | cons b rest ih => cases b <;> simp [natOfBits, Nat.pow_succ] <;> omega

/-- Writing back the number of some bits gives the bits. -/
theorem bitsOf_natOfBits (bits : List Bool) : ∀ c : Nat,
    bitsOf bits.length (natOfBits bits + c * 2 ^ bits.length) = bits := by
  induction bits with
  | nil => intro c; rfl
  | cons b rest ih =>
    intro c
    have hlt := natOfBits_lt rest
    have hsplit : natOfBits (b :: rest) + c * 2 ^ (b :: rest).length
        = natOfBits rest + (b.toNat + 2 * c) * 2 ^ rest.length := by
      simp only [natOfBits, List.length_cons, Nat.pow_succ]; ring
    rw [hsplit, List.length_cons, bitsOf, ih, Nat.testBit_eq_decide_div_mod_eq,
      Nat.add_mul_div_right _ _ (Nat.two_pow_pos _), Nat.div_eq_of_lt hlt]
    cases b <;> simp [Nat.add_mod]

end Sys2Proof
end

