-- ==== Sys2Proof/Laws/State.lean ====
section
/-! SUPPORT. One lemma per field of State per update, true by rfl, so that no proof unfolds a record update. -/

namespace Sys2Proof.Machine

@[simp] theorem State.driveEnc_encF32In (s : State) (f : Single) : (s.driveEnc f).encF32In = some f := rfl
@[simp] theorem State.driveEnc_decHIn (s : State) (f : Single) : (s.driveEnc f).decHIn = s.decHIn := rfl
@[simp] theorem State.driveEnc_clsHIn (s : State) (f : Single) : (s.driveEnc f).clsHIn = s.clsHIn := rfl
@[simp] theorem State.driveEnc_params (s : State) (f : Single) : (s.driveEnc f).params = s.params := rfl
@[simp] theorem State.driveEnc_program (s : State) (f : Single) : (s.driveEnc f).program = s.program := rfl
@[simp] theorem State.driveEnc_target (s : State) (f : Single) : (s.driveEnc f).target = s.target := rfl
@[simp] theorem State.driveEnc_results (s : State) (f : Single) : (s.driveEnc f).results = s.results := rfl

@[simp] theorem State.driveDec_encF32In (s : State) (h : Half) : (s.driveDec h).encF32In = s.encF32In := rfl
@[simp] theorem State.driveDec_decHIn (s : State) (h : Half) : (s.driveDec h).decHIn = some h := rfl
@[simp] theorem State.driveDec_clsHIn (s : State) (h : Half) : (s.driveDec h).clsHIn = s.clsHIn := rfl
@[simp] theorem State.driveDec_params (s : State) (h : Half) : (s.driveDec h).params = s.params := rfl
@[simp] theorem State.driveDec_program (s : State) (h : Half) : (s.driveDec h).program = s.program := rfl
@[simp] theorem State.driveDec_target (s : State) (h : Half) : (s.driveDec h).target = s.target := rfl
@[simp] theorem State.driveDec_results (s : State) (h : Half) : (s.driveDec h).results = s.results := rfl

@[simp] theorem State.driveCls_encF32In (s : State) (h : Half) : (s.driveCls h).encF32In = s.encF32In := rfl
@[simp] theorem State.driveCls_decHIn (s : State) (h : Half) : (s.driveCls h).decHIn = s.decHIn := rfl
@[simp] theorem State.driveCls_clsHIn (s : State) (h : Half) : (s.driveCls h).clsHIn = some h := rfl
@[simp] theorem State.driveCls_params (s : State) (h : Half) : (s.driveCls h).params = s.params := rfl
@[simp] theorem State.driveCls_program (s : State) (h : Half) : (s.driveCls h).program = s.program := rfl
@[simp] theorem State.driveCls_target (s : State) (h : Half) : (s.driveCls h).target = s.target := rfl
@[simp] theorem State.driveCls_results (s : State) (h : Half) : (s.driveCls h).results = s.results := rfl

@[simp] theorem State.file_encF32In (s : State) (r : Result) : (s.file r).encF32In = s.encF32In := rfl
@[simp] theorem State.file_decHIn (s : State) (r : Result) : (s.file r).decHIn = s.decHIn := rfl
@[simp] theorem State.file_clsHIn (s : State) (r : Result) : (s.file r).clsHIn = s.clsHIn := rfl
@[simp] theorem State.file_params (s : State) (r : Result) : (s.file r).params = s.params := rfl
@[simp] theorem State.file_program (s : State) (r : Result) : (s.file r).program = s.program := rfl
@[simp] theorem State.file_target (s : State) (r : Result) : (s.file r).target = s.target := rfl
@[simp] theorem State.file_results (s : State) (r : Result) : (s.file r).results = s.results.insert s.target.label (s.target.pick r) := rfl

@[simp] theorem State.beginLine_encF32In (s : State) (l : Label) (p : Option Predicate) (rest : List Line) : (s.beginLine l p rest).encF32In = s.encF32In := rfl
@[simp] theorem State.beginLine_decHIn (s : State) (l : Label) (p : Option Predicate) (rest : List Line) : (s.beginLine l p rest).decHIn = s.decHIn := rfl
@[simp] theorem State.beginLine_clsHIn (s : State) (l : Label) (p : Option Predicate) (rest : List Line) : (s.beginLine l p rest).clsHIn = s.clsHIn := rfl
@[simp] theorem State.beginLine_params (s : State) (l : Label) (p : Option Predicate) (rest : List Line) : (s.beginLine l p rest).params = s.params := rfl
@[simp] theorem State.beginLine_program (s : State) (l : Label) (p : Option Predicate) (rest : List Line) : (s.beginLine l p rest).program = rest := rfl
@[simp] theorem State.beginLine_target (s : State) (l : Label) (p : Option Predicate) (rest : List Line) : (s.beginLine l p rest).target = { label := l, select := p } := rfl
@[simp] theorem State.beginLine_results (s : State) (l : Label) (p : Option Predicate) (rest : List Line) : (s.beginLine l p rest).results = s.results := rfl

@[simp] theorem State.load_encF32In (s : State) (p : List Line) : (s.load p).encF32In = s.encF32In := rfl
@[simp] theorem State.load_decHIn (s : State) (p : List Line) : (s.load p).decHIn = s.decHIn := rfl
@[simp] theorem State.load_clsHIn (s : State) (p : List Line) : (s.load p).clsHIn = s.clsHIn := rfl
@[simp] theorem State.load_params (s : State) (p : List Line) : (s.load p).params = s.params := rfl
@[simp] theorem State.load_program (s : State) (p : List Line) : (s.load p).program = p := rfl
@[simp] theorem State.load_target (s : State) (p : List Line) : (s.load p).target = s.target := rfl
@[simp] theorem State.load_results (s : State) (p : List Line) : (s.load p).results = [] := rfl

@[simp] theorem State.placeRequest_encF32In (s : State) (bits : List Bool) : (s.placeRequest bits).encF32In = s.encF32In := rfl
@[simp] theorem State.placeRequest_decHIn (s : State) (bits : List Bool) : (s.placeRequest bits).decHIn = s.decHIn := rfl
@[simp] theorem State.placeRequest_clsHIn (s : State) (bits : List Bool) : (s.placeRequest bits).clsHIn = s.clsHIn := rfl
@[simp] theorem State.placeRequest_params (s : State) (bits : List Bool) : (s.placeRequest bits).params = s.params := rfl
@[simp] theorem State.placeRequest_target (s : State) (bits : List Bool) : (s.placeRequest bits).target = s.target := rfl
@[simp] theorem State.placeRequest_results (s : State) (bits : List Bool) : (s.placeRequest bits).results = s.results := rfl

/-- Drives of different ports commute. -/
theorem State.driveEnc_driveDec (s : State) (f : Single) (h : Half) :
    (s.driveEnc f).driveDec h = (s.driveDec h).driveEnc f := rfl

theorem State.driveEnc_driveCls (s : State) (f : Single) (h : Half) :
    (s.driveEnc f).driveCls h = (s.driveCls h).driveEnc f := rfl

theorem State.driveDec_driveCls (s : State) (h h' : Half) :
    (s.driveDec h).driveCls h' = (s.driveCls h').driveDec h := rfl

end Sys2Proof.Machine
end

