-- ==== Sys2Proof/Laws/Results.lean ====
section
/-! SUPPORT. The map of results: what an insertion answers, that it keeps the canonical form, and how it meets the program's
legality. -/

namespace Sys2Proof.Machine

/-- The order of labels separates them. -/
theorem Label.key_injective {a b : Label} (h : a.key = b.key) : a = b := by
  cases a <;> cases b <;> simp [Label.key] at h ⊢ <;> omega

/-- A read after a write under the same label gives what was written. -/
theorem results_get_insert_self (k : Label) (r : Result) (rs : Results) :
    Results.get k (Results.insert k r rs) = some r := by
  induction rs with
  | nil => simp [Results.insert, Results.get]
  | cons e rest ih =>
    obtain ⟨l, q⟩ := e
    unfold Results.insert
    split
    · simp [Results.get]
    · split
      · have hne : l ≠ k := by rintro rfl; omega
        simp [Results.get, hne, ih]
      · simp [Results.get]

/-- A write leaves every other label alone. -/
theorem results_get_insert_other {k k' : Label} (hk : k' ≠ k) (r : Result) (rs : Results) :
    Results.get k' (Results.insert k r rs) = Results.get k' rs := by
  induction rs with
  | nil => simp [Results.insert, Results.get, Ne.symm hk]
  | cons e rest ih =>
    obtain ⟨l, q⟩ := e
    unfold Results.insert
    split
    · simp [Results.get, Ne.symm hk]
    · split
      · simp [Results.get, ih]
      · have hl : l = k := Label.key_injective (by omega)
        subst hl
        simp [Results.get, Ne.symm hk]

/-- What stands in the map after a write stood there before or is what was written. -/
theorem results_mem_insert {k : Label} {r : Result} {rs : Results} {e : Label × Result}
    (h : e ∈ Results.insert k r rs) : e = (k, r) ∨ e ∈ rs := by
  induction rs with
  | nil => simpa [Results.insert] using h
  | cons d rest ih =>
    obtain ⟨l, q⟩ := d
    unfold Results.insert at h
    split at h
    · simpa using h
    · split at h
      · rcases List.mem_cons.mp h with h | h
        · exact .inr (by simp [h])
        · rcases ih h with h | h
          · exact .inl h
          · exact .inr (by simp [h])
      · rcases List.mem_cons.mp h with h | h
        · exact .inl h
        · exact .inr (by simp [h])

/-- Every write keeps the canonical form. -/
theorem results_wf_insert (k : Label) (r : Result) {rs : Results} (h : rs.wf = true) :
    (Results.insert k r rs).wf = true := by
  induction rs with
  | nil => rfl
  | cons d rest ih =>
    obtain ⟨l, q⟩ := d
    simp only [Results.wf, Bool.and_eq_true, Results.above, List.all_eq_true, decide_eq_true_eq] at h
    obtain ⟨hl, hr⟩ := h
    unfold Results.insert
    split
    · rename_i hk
      simp only [Results.wf, Results.above, Bool.and_eq_true, List.all_eq_true, decide_eq_true_eq, List.mem_cons]
      refine ⟨?_, hl, hr⟩
      rintro e (rfl | he)
      · exact hk
      · exact lt_trans hk (hl e he)
    · split
      · rename_i hk
        simp only [Results.wf, Results.above, Bool.and_eq_true, List.all_eq_true, decide_eq_true_eq]
        refine ⟨fun e he => ?_, ih hr⟩
        rcases results_mem_insert he with rfl | he
        · exact hk
        · exact hl e he
      · have hkl : l = k := Label.key_injective (by omega)
        subst hkl
        simp only [Results.wf, Results.above, Bool.and_eq_true, List.all_eq_true, decide_eq_true_eq]
        exact ⟨hl, hr⟩

/-- A write under a label above all others is an append. -/
theorem results_insert_above {k : Label} {r : Result} {rs : Results} (h : ∀ e ∈ rs, e.1.key < k.key) :
    Results.insert k r rs = rs ++ [(k, r)] := by
  induction rs with
  | nil => rfl
  | cons d rest ih =>
    obtain ⟨l, q⟩ := d
    have hl : l.key < k.key := h (l, q) (by simp)
    have : ¬ k.key < l.key := by omega
    simp [Results.insert, this, hl, ih fun e he => h e (by simp [he])]

/-- The static check of a label (30_encoding R73) is the dynamic one. -/
theorem results_kinds_below (rs : Results) (l : Label) :
    rs.kinds.below l = rs.all fun e => e.1.key < l.key := by
  simp [Results.kinds, KindEnv.below, List.all_map, Function.comp_def]

/-- The static kind under a label is the kind of the result under it. -/
theorem results_kindOf (rs : Results) (k : Label) :
    rs.kinds.kindOf k = (rs.get k).map Result.kind := by
  induction rs with
  | nil => rfl
  | cons d rest ih =>
    obtain ⟨l, q⟩ := d
    simp only [Results.kinds, List.map_cons, KindEnv.kindOf, Results.get] at ih ⊢
    split
    · rfl
    · exact ih

/-- The fresh number lies above every label of the map (log entry 5). -/
theorem results_freshNumber_above (rs : Results) :
    ∀ e ∈ rs, e.1.key < (Label.line rs.freshNumber).key := by
  induction rs with
  | nil => simp
  | cons d rest ih =>
    obtain ⟨l, q⟩ := d
    intro e he
    rcases List.mem_cons.mp he with rfl | he
    · cases l <;> simp only [Results.freshNumber, Label.key] <;> omega
    · have := ih e he
      cases l <;> simp only [Results.freshNumber, Label.key] at this ⊢ <;> omega

end Sys2Proof.Machine
end

