-- ==== Sys2Proof/Laws/Exec.lean ====
section
/-! SUPPORT. What an evaluation and a step can do, said once. -/

namespace Sys2Proof.Machine

/-- Every evaluation answers a next state (60_exceptions R200): its unit's input driven, its unit's result filed. -/
theorem exec_cases (i : Instr) (s : State) :
    (∃ f, i = .encode f ∧
      exec i s = .next ((s.driveEnc f).file (.half (encodeF32 (encNanOf s.params.enc) f)))) ∨
    (∃ h, i = .decode h ∧
      exec i s = .next ((s.driveDec h).file (.single (decodeF16 (decNanOf s.params.dec) h)))) ∨
    (∃ h, i = .classify h ∧ exec i s = .next ((s.driveCls h).file (.cls (classifyF16 h)))) := by
  cases i with
  | encode f => exact .inl ⟨f, rfl, rfl⟩
  | decode h => exact .inr (.inl ⟨h, rfl, rfl⟩)
  | classify h => exact .inr (.inr ⟨h, rfl, rfl⟩)

/-- What a step that answers a next state did: nothing, the program having ended, or the next line. -/
theorem step_next_cases {s t : State} (h : step s = .next t) :
    (s.program = [] ∧ t = s) ∨
    (∃ l rest i select, s.program = l :: rest ∧ s.resolve l = .ok (i, select) ∧
      exec i (s.beginLine l.label select rest) = .next t) := by
  unfold step at h
  split at h
  · rename_i hp
    cases h
    exact .inl ⟨hp, rfl⟩
  · rename_i l rest hp
    split at h
    · cases h
    · rename_i i select hr
      exact .inr ⟨l, rest, i, select, hp, hr, h⟩

/-- A line resolves only under a label above those of all results (30_encoding R73). -/
theorem resolve_ok {s : State} {l : Line} {x : Instr × Option Predicate} (h : s.resolve l = .ok x) :
    s.acceptsLabel l.label = true ∧ s.resolveOp l.op = .ok x := by
  unfold State.resolve at h
  split at h
  · exact ⟨‹_›, h⟩
  · cases h

/-- A placed raw request is the next line, under a label above those of all results, and the lines after the one it
replaces stay (log entry 5). -/
theorem placeRequest_program (s : State) (bits : List Bool) :
    ∃ label, s.acceptsLabel label = true ∧
      (s.placeRequest bits).program = { label := label, op := .request bits } :: s.program.drop 1 := by
  have hfresh : s.acceptsLabel (.line s.results.freshNumber) = true := by
    simpa [State.acceptsLabel] using results_freshNumber_above s.results
  cases hp : s.program with
  | nil => exact ⟨_, hfresh, by simp [State.placeRequest, hp]⟩
  | cons l rest =>
    by_cases hl : s.acceptsLabel l.label = true
    · exact ⟨_, hl, by simp [State.placeRequest, hp, hl]⟩
    · exact ⟨_, hfresh, by simp [State.placeRequest, hp, hl]⟩

/-- A 32-bit operand is its literal or DECODE's result under its label. -/
theorem operand32_ok {s : State} {x : Operand 32} {f : Single} (h : s.operand32 x = .ok f) :
    x = .lit f ∨ ∃ k, x = .ref k ∧ s.results.get k = some (.single f) := by
  cases x with
  | lit v => cases h; exact .inl rfl
  | ref k =>
    simp only [State.operand32] at h
    split at h <;> cases h
    exact .inr ⟨k, rfl, ‹_›⟩

/-- A 16-bit operand is its literal or ENCODE's result under its label. -/
theorem operand16_ok {s : State} {x : Operand 16} {v : Half} (h : s.operand16 x = .ok v) :
    x = .lit v ∨ ∃ k, x = .ref k ∧ s.results.get k = some (.half v) := by
  cases x with
  | lit w => cases h; exact .inl rfl
  | ref k =>
    simp only [State.operand16] at h
    split at h <;> cases h
    exact .inr ⟨k, rfl, ‹_›⟩

end Sys2Proof.Machine
end

