-- ==== Sys2Proof/Laws/PerInstr.lean ====
section
/-! SUPPORT. The shape of each operation's request (30_encoding R67, R68), one lemma per constructor of Instr. -/

namespace Sys2Proof.Laws.RequestShape

/-- A request is well formed, is the op's two bits and then its operand's, and its raw form has a meaning. -/
def Statement (i : Instr) : Prop :=
  i.wf = true ∧ requestWf (encodeRequest i) = true ∧
    encodeRequest i = i.op.getLsbD 1 :: i.op.getLsbD 0 :: i.operandBits

/-- An op and an operand's bits, by the op's two bits. -/
theorem encodeRequest_cons (i : Instr) :
    encodeRequest i = i.op.getLsbD 1 :: i.op.getLsbD 0 :: i.operandBits := by
  cases i <;> rfl

theorem encode (f : Single) : Statement (.encode f) := by
  refine ⟨rfl, ?_, encodeRequest_cons _⟩
  rw [encodeRequest_cons]
  simp [Instr.op, Instr.operandBits, requestWf, length_bitsOf]

theorem decode (h : Half) : Statement (.decode h) := by
  refine ⟨rfl, ?_, encodeRequest_cons _⟩
  rw [encodeRequest_cons]
  simp [Instr.op, Instr.operandBits, requestWf, length_bitsOf]

theorem classify (h : Half) : Statement (.classify h) := by
  refine ⟨rfl, ?_, encodeRequest_cons _⟩
  rw [encodeRequest_cons]
  simp [Instr.op, Instr.operandBits, requestWf, length_bitsOf]

end Sys2Proof.Laws.RequestShape
end

