-- ==== Sys2Proof/Tests/Slice0.lean ====
section
/-! SUPPORT. Tests of single steps and requests, with expected results from 95_test_vectors, the smoke tests of WellFormed, and a
witness for each statement that has hypotheses. -/

namespace Sys2Proof.Tests

open Sys2Proof Sys2Proof.Machine

/-- The map of results an outcome leaves. -/
def resultsOf (o : Host.Outcome State Fault Refusal) : Option Results :=
  match o with
  | .next t => some t.results
  | .fault _ => none
  | .refused _ => none

/-- Why an outcome is a refusal. -/
def refusalOf (o : Host.Outcome State Fault Refusal) : Option Refusal :=
  match o with
  | .next _ => none
  | .fault _ => none
  | .refused r => some r

/-- A state after reset with a program. -/
def withProgram (p : List Line) : State := State.reset.load p

/-- A state after reset with one raw request. -/
def withBits (bits : List Bool) : State := withProgram [{ label := .line 1, op := .request bits }]

/-! ## WellFormed: what each check refuses -/

/-- op = 0b11 (30_encoding R71, 95 P6). -/
theorem test_requestWf_refuses_reserved_op : requestWf (true :: true :: List.replicate 16 false) = false := by decide

/-- A length that is not the op's (30_encoding R68). -/
theorem test_requestWf_refuses_length : requestWf (false :: true :: List.replicate 32 false) = false := by decide

/-- Labels that do not increase (30_encoding R73). -/
theorem test_programWf_refuses_repeated_label :
    programWf [] [⟨.line 1, .decode (.lit 0)⟩, ⟨.line 1, .decode (.lit 0)⟩] = false := by decide

/-- A result of another width (30_encoding R73). -/
theorem test_programWf_refuses_width :
    programWf [] [⟨.line 1, .encode (.lit 0)⟩, ⟨.line 2, .encode (.ref (.line 1))⟩] = false := by decide

/-- A CLASSIFY result feeds nothing (30_encoding R73). -/
theorem test_programWf_refuses_class_operand :
    programWf [] [⟨.line 1, .classify (.lit 0)⟩, ⟨.line 2, .decode (.ref (.line 1))⟩] = false := by decide

/-- An operand that is no earlier line's (30_encoding R73). -/
theorem test_programWf_refuses_undefined_operand :
    programWf [] [⟨.line 1, .encode (.ref (.line 2))⟩] = false := by decide

/-- Program P1 is legal (95 section 3). -/
theorem test_programWf_accepts_P1 :
    programWf [] [⟨.line 1, .decode (.lit 0x3555)⟩, ⟨.line 2, .encode (.ref (.line 1))⟩,
      ⟨.line 3, .classify (.ref (.line 2))⟩] = true := by decide

/-! ## Requests, written out bit by bit (30_encoding R68; words of 95 section 3) -/

/-- P3 line %1: `00 01000111011111111111000000000000`. -/
theorem test_decode_encode_word : decodeRequest
    [false, false,
      false, true, false, false, false, true, true, true, false, true, true, true, true, true, true, true,
      true, true, true, true, false, false, false, false, false, false, false, false, false, false, false, false]
    = .ok (.encode 0x477FF000) := by decide

/-- P1 line %1: `01 0011010101010101`. -/
theorem test_decode_decode_word : decodeRequest
    [false, true, false, false, true, true, false, true, false, true, false, true, false, true, false, true, false, true]
    = .ok (.decode 0x3555) := by decide

/-- P3 line %9: `10 1000000000000000`. -/
theorem test_decode_classify_word : decodeRequest
    [true, false, true, false, false, false, false, false, false, false, false, false, false, false, false, false, false,
      false] = .ok (.classify 0x8000) := by decide

/-- P6, and two bit strings of no request. -/
theorem test_decode_refuses :
    decodeRequest (true :: true :: List.replicate 16 false) = .error .reservedOp ∧
    decodeRequest (true :: false :: List.replicate 32 false) = .error (.operandWidth 32) ∧
    decodeRequest [true] = .error .noOp := by decide

/-- The opcode table's numbering, on the hex requests of P1. -/
theorem test_decodeTableWord :
    decodeTableWord 40 0x03EAAA000 = some (.encode 0x3EAAA000) ∧ decodeTableWord 24 0x13555 = some (.decode 0x3555) ∧
    decodeTableWord 24 0x23555 = some (.classify 0x3555) ∧ decodeTableWord 24 0x30000 = none ∧
    decodeTableWord 40 0x300000000 = none := by decide

/-- The encoder's words are those of P1 (0x13555). -/
theorem test_encodeRequest : encodeRequest (.decode 0x3555) = bitsOf 18 0x13555 := by decide

/-! ## The operations -/

/-- E19: the carry at e = 30 gives infinity; E37: a subnormal tie with an odd kept part rounds up. -/
theorem test_encode_carry_and_tie :
    resultsOf (exec (.encode 0x477FF000) State.reset) = some [(.line 0, .half 0x7C00)] ∧
    resultsOf (exec (.encode 0x34600000) State.reset) = some [(.line 0, .half 0x0004)] := by decide

/-- E45: a payload only in M[12:0] stays a NaN under the default map. -/
theorem test_encode_nan_fixup :
    resultsOf (exec (.encode 0x7F800001) State.reset) = some [(.line 0, .half 0x7C01)] := by decide

/-- DV8: a subnormal with its leading one at bit 8. -/
theorem test_decode_subnormal :
    resultsOf (exec (.decode 0x0155) State.reset) = some [(.line 0, .single 0x37AA8000)] := by decide

/-- DV30: a negative signalling NaN under the default map. -/
theorem test_decode_signalling_nan :
    resultsOf (exec (.decode 0xFDFF) State.reset) = some [(.line 0, .single 0xFFBFE000)] := by decide

/-- K2: negative zero sets c[0] and c[5]. -/
theorem test_classify_neg_zero :
    resultsOf (exec (.classify 0x8000) State.reset) = some [(.line 0, .cls 0b100001)] := by decide

/-- K6: the smallest normal is normal. -/
theorem test_classify_smallest_normal :
    resultsOf (exec (.classify 0x0400) State.reset) = some [(.line 0, .cls 0b000100)] := by decide

/-- 95 2.5: the canonical encoder map on E48 and the forced-quiet decoder map on DV30. -/
theorem test_sample_nan_maps :
    encodeF32 (encNanOf .canonical) 0xFFBFE000 = 0x7E00 ∧ decodeF16 (decNanOf .forcedQuiet) 0xFDFF = 0xFFFFE000 := by
  decide

/-- A placed opcode-table word runs as the first evaluation after reset (P2 line %1). -/
theorem test_withFetchWord_runs :
    resultsOf (step (State.reset.withFetchWord 40 0x03F801000)) = some [(.line 1, .half 0x3C00)] := by decide

/-- P6: op 0b11 is refused at the boundary. -/
theorem test_step_refuses_reserved_op :
    refusalOf (step (withBits (true :: true :: List.replicate 16 false))) = some (.noRequest .reservedOp) := by decide

/-- 95 2.4: `isNegativeZero 0000` gives 0. -/
theorem test_step_predicate :
    resultsOf (step (withProgram [⟨.line 1, .predicate .isNegativeZero (.lit 0)⟩])) = some [(.line 1, .bit 0)] := by
  decide

/-- The text of P1's first two lines, with a comment, and of a pseudo-operation (30_encoding R73, R74). -/
theorem test_assemble :
    assemble (['%', '1', ' ', '=', ' ', 'D', 'E', 'C', 'O', 'D', 'E', ' ', '3', '5', '5', '5', ' ', '-', '-', 'x', '\n'] ++
      ['%', '2', ' ', '=', ' ', 'e', 'n', 'c', 'o', 'd', 'e', ' ', '%', '1', '\n'] ++
      ['%', '1', '0', ' ', '=', ' ', 'i', 's', 'N', 'a', 'N', ' ', '7', 'd', 'F', 'F'])
    = .ok [⟨.line 1, .decode (.lit 0x3555)⟩, ⟨.line 2, .encode (.ref (.line 1))⟩,
        ⟨.line 10, .predicate .isNaN (.lit 0x7DFF)⟩] := by decide

/-- The text of P2 line %1, and of a line whose operand is a result: `%12 = decode %2`. -/
theorem test_printAs :
    printAs ['E', 'N', 'C', 'O', 'D', 'E'] (.line ⟨.line 1, .encode (.lit 0x3F801000)⟩)
      = ['%', '1', ' ', '=', ' ', 'E', 'N', 'C', 'O', 'D', 'E', ' ', '3', 'F', '8', '0', '1', '0', '0', '0'] ∧
    printAs ['d', 'e', 'c', 'o', 'd', 'e'] (.line ⟨.line 12, .decode (.ref (.line 2))⟩)
      = ['%', '1', '2', ' ', '=', ' ', 'd', 'e', 'c', 'o', 'd', 'e', ' ', '%', '2'] := by decide

/-- 20_memory R41: the little image of 0x3C01 has its low byte first. -/
theorem test_hostStore : hostStore .little 0x3C01 = (0x01, 0x3C) ∧ hostStore .big 0x3C01 = (0x3C, 0x01) := by decide

/-! ## Witnesses: states and operands that meet the hypotheses of each statement that has some -/

theorem witness_RneShiftRoundsToNearestEven : 1 ≤ 13 := by decide

theorem witness_DecodeOfEncodeIsTheRequest : (Instr.encode 0xFFFFFFFF).wf = true := by decide

theorem witness_EncodeOfDecodeIsTheBits : decodeRequest (bitsOf 18 0x27C00) = .ok (.classify 0x7C00) := by decide

theorem witness_EncodeOfInfinity : exp32 0xFF800000 = 255 ∧ man32 0xFF800000 = 0 := by decide

theorem witness_EncodeOfNan :
    exp32 0x7F800001 = 255 ∧ man32 0x7F800001 ≠ 0 ∧ State.reset.params.enc = .specDefault := by decide

theorem witness_EncNanMapsMeetTheirConstraints : isNan 0xFC01 = true := by decide

/-- Both ends of the regime. -/
theorem witness_EncodeOverflow : (exp32 0x47800000).toNat = 143 ∧ (exp32 0xFF7FFFFF).toNat = 254 := by decide

/-- Both ends of the regime. -/
theorem witness_EncodeNormal : (exp32 0x38800000).toNat = 113 ∧ (exp32 0x477FFFFF).toNat = 142 := by decide

theorem witness_EncodeNormalCarry :
    ((exp32 0x477FF000).toNat = 142 ∧ rneShift (man32 0x477FF000).toNat 13 = 1024) ∧
    (0x477FF000 : Single).toNat % 2 ^ 31 = 0x477FF000 ∧ (0xC77FFFFF : Single).toNat % 2 ^ 31 = 0x477FFFFF := by decide

/-- Both ends of the regime. -/
theorem witness_EncodeSubnormal : (exp32 0x33000000).toNat = 102 ∧ (exp32 0x387FDFFF).toNat = 112 := by decide

theorem witness_EncodeSubnormalCarry :
    ((exp32 0x387FE000).toNat = 112 ∧ 0x387FE000 ≤ (0x387FE000 : Single).toNat % 2 ^ 31) ∧
    (exp32 0x33000000).toNat = 102 ∧ (exp32 0x37FFFFFF).toNat = 111 := by decide

theorem witness_EncodeUnderflow :
    (exp32 0x32FFFFFF).toNat = 101 ∧ class32 0x80000000 = .zero ∧ class32 0x807FFFFF = .subnormal := by decide

theorem witness_EncodeRoundsTheValue :
    (isNan32 0x3F800000 = false ∧ val32 0x3F800000 = .num 1) ∧
    (isNan32 0xFF800000 = false ∧ val32 0xFF800000 = .inf true) := by
  have he : exp32 0x3F800000#32 = 127#8 := by decide
  have hm : man32 0x3F800000#32 = 0#23 := by decide
  have hs : sign32 0x3F800000#32 = 0#1 := by decide
  have he' : exp32 0xFF800000#32 = 255#8 := by decide
  have hm' : man32 0xFF800000#32 = 0#23 := by decide
  have hs' : sign32 0xFF800000#32 = 1#1 := by decide
  refine ⟨⟨by decide, ?_⟩, by decide, ?_⟩
  · simp [val32, num32, signFactor, he, hm, hs]
  · simp [val32, he', hm', hs']

theorem witness_EncodeKeepsTheSign : isNan32 0x80000000 = false ∧ isNan32 0xFF800001 = true := by decide

/-- An input at each end of each range, and two inputs of one sign in order. -/
theorem witness_EncodeRangesAndMonotone :
    ((0x33000000 : Single).toNat % 2 ^ 31 = 0x33000000 ∧ (0x33000001 : Single).toNat % 2 ^ 31 = 0x33000001 ∧
      (0xB87FDFFF : Single).toNat % 2 ^ 31 = 0x387FDFFF ∧ (0x387FE000 : Single).toNat % 2 ^ 31 = 0x387FE000 ∧
      (0x477FEFFF : Single).toNat % 2 ^ 31 = 0x477FEFFF ∧ (0x477FF000 : Single).toNat % 2 ^ 31 = 0x477FF000 ∧
      (0xFF800000 : Single).toNat % 2 ^ 31 = 0x7F800000 ∧ (0x7F800001 : Single).toNat % 2 ^ 31 = 0x7F800001) ∧
    (sign32 0xB3000000 = sign32 0xB3000001 ∧ isNan32 0xB3000000 = false ∧ isNan32 0xB3000001 = false ∧
      (0xB3000000 : Single).toNat % 2 ^ 31 ≤ (0xB3000001 : Single).toNat % 2 ^ 31) := by decide

theorem witness_EncodeOfExactValues :
    val32 0xFF800000 = val16 0xFC00 ∧ isNan 0xFC00 = false ∧ sign32 0xFF800000 = sign16 0xFC00 := by
  have he : exp32 0xFF800000#32 = 255#8 := by decide
  have hm : man32 0xFF800000#32 = 0#23 := by decide
  have hs : sign32 0xFF800000#32 = 1#1 := by decide
  have he' : exp16 0xFC00#16 = 31#5 := by decide
  have hm' : man16 0xFC00#16 = 0#10 := by decide
  have hs' : sign16 0xFC00#16 = 1#1 := by decide
  refine ⟨?_, by decide, by decide⟩
  simp [val32, val16, he, hm, hs, he', hm', hs']

theorem witness_EncodeToOne : NanE1 encNanCanonical ∧ val32 0x3F800000 = .num 1 :=
  ⟨fun _ _ _ => ⟨by simp [encNanCanonical, exp16], by simp [encNanCanonical, man16]⟩,
    witness_EncodeRoundsTheValue.1.2⟩

theorem witness_DecodeOfZero : exp16 0x8000 = 0 ∧ man16 0x8000 = 0 := by decide

/-- Both ends of the leading one's range. -/
theorem witness_DecodeOfSubnormal :
    (exp16 0x0001 = 0 ∧ 2 ^ 0 ≤ (man16 0x0001).toNat ∧ (man16 0x0001).toNat < 2 ^ 1) ∧
    (exp16 0x83FF = 0 ∧ 2 ^ 9 ≤ (man16 0x83FF).toNat ∧ (man16 0x83FF).toNat < 2 ^ 10) := by decide

theorem witness_DecodeOfNormal : (exp16 0x0400).toNat = 1 ∧ (exp16 0xFBFF).toNat = 30 := by decide

theorem witness_DecodeOfInfinity : exp16 0x7C00 = 31 ∧ man16 0x7C00 = 0 := by decide

theorem witness_DecodeOfNan :
    exp16 0x7C01 = 31 ∧ man16 0x7C01 ≠ 0 ∧ State.reset.params.dec = .specDefault := by decide

theorem witness_DecNanMapsMeetTheirConstraints : isNan32 0x7F800001 = true := by decide

theorem witness_DecodeIsExact : isNan 0xFC00 = false := by decide

/-- A decoder map that meets NAN-D1, and a pattern of each class. -/
theorem witness_DecodeClasses :
    NanD1 (fun _ _ => 0x7FC00000) ∧ class16 0x8000 = .zero ∧ class16 0x03FF = .subnormal ∧ class16 0x0400 = .normal ∧
    class16 0x7C00 = .infinity ∧ isNan 0x7C01 = true :=
  ⟨fun _ _ _ => ⟨by simp [exp32], by simp [man32]⟩, by decide⟩

theorem witness_EncodeOfDecodeIsThePattern :
    NanE1 encNanCanonical ∧ NanD1 (fun _ _ => 0x7FC00000) ∧ isNan 0x7DFF = true ∧ isNan 0x7BFF = false :=
  ⟨witness_EncodeToOne.1, witness_DecodeClasses.1, by decide⟩

theorem witness_DecodeOfEncodeIsThePattern :
    isNan 0x0001 = false ∧ (0x33800000 : Single) = decodeF16 decNanDefault 0x0001 := by decide

theorem witness_ClassifyAgreesWithDecode : NanD1 (fun _ _ => 0x7FC00000) := witness_DecodeClasses.1

/-- A state with every input driven, and one with none. -/
theorem witness_OutputsFollowInputs :
    (((State.reset.driveEnc 0).driveDec 0).driveCls 0).encF32In = some 0 ∧
    (((State.reset.driveEnc 0).driveDec 0).driveCls 0).decHIn = some 0 ∧
    (((State.reset.driveEnc 0).driveDec 0).driveCls 0).clsHIn = some 0 ∧
    State.reset.encF32In = none ∧ State.reset.decHIn = none ∧ State.reset.clsHIn = none := by decide

theorem witness_StepRunsTheNextLine :
    (withProgram [⟨.line 1, .predicate .isNaN (.lit 0x7E00)⟩]).resolve ⟨.line 1, .predicate .isNaN (.lit 0x7E00)⟩
      = .ok (.classify 0x7E00, some .isNaN) ∧
    (withProgram [⟨.line 1, .predicate .isNaN (.lit 0x7E00)⟩]).program = [⟨.line 1, .predicate .isNaN (.lit 0x7E00)⟩] ∧
    (withBits (bitsOf 18 0x13555)).program = [{ label := .line 1, op := .request (bitsOf 18 0x13555) }] ∧
    (withBits (bitsOf 18 0x13555)).acceptsLabel (.line 1) = true ∧
    decodeRequest (bitsOf 18 0x13555) = .ok (.decode 0x3555) ∧ (Instr.decode 0x3555).wf = true := by decide

theorem witness_EndedProgramStays : State.reset.program = [] := by decide

theorem witness_PlacedRequestIsTheNextEvaluation : decodeTableWord 24 0x28000 = some (.classify 0x8000) := by decide

theorem witness_OnlyTheReservedOpIsRefused :
    (withBits [true, true]).program = [{ label := .line 1, op := .request (true :: true :: []) }] ∧
    (withBits (encodeRequest (.encode 0))).program = [{ label := .line 1, op := .request (encodeRequest (.encode 0)) }] ∧
    (withBits [true, true]).acceptsLabel (.line 1) = true ∧
    (withBits (encodeRequest (.encode 0))).acceptsLabel (.line 1) = true := by decide

theorem witness_EvaluationFrame : ∃ t, exec (.encode 0) State.reset = .next t := ⟨_, rfl⟩

/-- Two states that differ in a port and in the results. -/
theorem witness_EqualInputsEqualResults :
    State.reset.params = ((State.reset.driveCls 1).file (.bit 1)).params ∧
    State.reset.target = ((State.reset.driveCls 1).file (.bit 1)).target ∧
    (∃ t, exec (.decode 1) State.reset = .next t) ∧
    ∃ t, exec (.decode 1) ((State.reset.driveCls 1).file (.bit 1)) = .next t :=
  ⟨rfl, rfl, ⟨_, rfl⟩, ⟨_, rfl⟩⟩

theorem witness_EvaluationIsIdempotent : ∃ t, exec (.classify 1) State.reset = .next t := ⟨_, rfl⟩

theorem witness_EvaluationsCommute :
    Label.line 1 ≠ Label.line 2 ∧ (Instr.encode 1).op ≠ (Instr.decode 2).op ∧
    ∃ ta tab tb tba,
      exec (.encode 1) (State.reset.beginLine (.line 1) none []) = .next ta ∧
      exec (.decode 2) (ta.beginLine (.line 2) none []) = .next tab ∧
      exec (.decode 2) (State.reset.beginLine (.line 2) none []) = .next tb ∧
      exec (.encode 1) (tb.beginLine (.line 1) none []) = .next tba :=
  ⟨by decide, by decide, _, _, _, _, rfl, rfl, rfl, rfl⟩

theorem witness_StepKeepsTheParameters : ∃ t, step State.reset = .next t := ⟨_, rfl⟩

theorem witness_StepKeepsTheProgramLegal :
    (withProgram [⟨.line 1, .decode (.lit 1)⟩]).inv = true ∧
    answersNext (step (withProgram [⟨.line 1, .decode (.lit 1)⟩])) = true := by decide

theorem witness_LegalLinesAreNeverRefused :
    (withProgram [⟨.line 1, .decode (.lit 1)⟩, ⟨.line 2, .encode (.ref (.line 1))⟩]).inv = true := by decide

theorem witness_ResetAndLoadAreLegal : programWf [] [⟨.line 1, .decode (.lit 1)⟩] = true := by decide

/-- A state with one result of each kind, and a program whose next line may take one. -/
def fed (op : LineOp) : State :=
  { State.reset with
    program := [⟨.line 9, op⟩]
    results := [(.line 1, .single 1), (.line 2, .half 2), (.line 3, .cls 1), (.line 4, .bit 1)] }

theorem witness_OperandsFeedWhereTheirWidthFits :
    (fed (.predicate .isZero (.ref (.line 2)))).program
      = [{ label := .line 9, op := .predicate .isZero (.ref (.line 2)) }] ∧
    (fed (.encode (.lit 0xFFFFFFFF))).program = [{ label := .line 9, op := .encode (.lit 0xFFFFFFFF) }] ∧
    (fed (.classify (.lit 0x8000))).acceptsLabel (.line 9) = true ∧
    (fed (.encode (.ref (.line 1)))).program = [{ label := .line 9, op := .encode (.ref (.line 1)) }] ∧
    (fed (.encode (.ref (.line 1)))).acceptsLabel (.line 9) = true ∧
    (fed (.encode (.ref (.line 1)))).results.get (.line 1) = some (.single 1) ∧
    (fed (.encode (.ref (.line 2)))).results.get (.line 2) = some (.half 2) ∧
    (fed (.decode (.ref (.line 3)))).results.get (.line 3) = some (.cls 1) ∧
    (fed (.classify (.ref (.line 4)))).results.get (.line 4) = some (.bit 1) ∧
    (fed (.classify (.ref (.line 5)))).results.get (.line 5) = none ∧
    ({ fed (.decode (.lit 0)) with program := [⟨.line 4, .decode (.lit 0)⟩] } : State).acceptsLabel (.line 4) = false := by
  decide

theorem witness_PseudoOperationsExpand :
    (withProgram [⟨.line 1, .predicate .isNegativeZero (.lit 0x8000)⟩]).program
      = [{ label := .line 1, op := .predicate .isNegativeZero (.lit 0x8000) }] ∧
    (Predicate.isNegativeZero, 5) ∈ [(Predicate.isZero, 0), (.isDenormalized, 1), (.isNormal, 2), (.isInfinite, 3),
      (.isNaN, 4), (.isNegativeZero, 5)] ∧
    (withProgram [⟨.line 1, .predicate .isNegativeZero (.lit 0x8000)⟩]).acceptsLabel (.line 1) = true ∧
    (withProgram (expand (.roundtrip16 1 (.lit 0x7DFF)))).program = expand (.roundtrip16 1 (.lit 0x7DFF)) ++ [] ∧
    (withProgram (expand (.roundtrip16 1 (.lit 0x7DFF)))).acceptsLabel (.temp 1) = true ∧
    (fed (.predicate .isNaN (.ref (.line 2)))).acceptsLabel (.line 9) = true ∧
    (fed (.predicate .isNaN (.ref (.line 2)))).results.get (.line 2) = some (.half 2) ∧
    (fed (.predicate .isNaN (.ref (.line 2)))).acceptsLabel (.temp 9) = true := by decide

/-- A statement of each operand form with its spelling, a legal and an illegal program, and a text that assembles. -/
theorem witness_PrintedProgramsAssembleBack :
    (writable (.line ⟨.line 2, .encode (.ref (.line 1))⟩) = true ∧
      ['e', 'n', 'c', 'o', 'd', 'e'] ∈ spellings (.line ⟨.line 2, .encode (.ref (.line 1))⟩)) ∧
    (writable (.roundtrip16 1 (.lit 0x7DFF)) = true ∧
      ['R', 'O', 'U', 'N', 'D', 'T', 'R', 'I', 'P', '1', '6'] ∈ spellings (.roundtrip16 1 (.lit 0x7DFF))) ∧
    programWf [] ([Stmt.roundtrip16 1 (.lit 0x7DFF), .line ⟨.line 2, .classify (.ref (.line 1))⟩].flatMap expand) = true ∧
    programWf [] ([Stmt.line ⟨.line 1, .encode (.ref (.line 1))⟩].flatMap expand) = false ∧
    assemble ['%', '1', ' ', '=', ' ', 'R', 'O', 'U', 'N', 'D', 'T', 'R', 'I', 'P', '1', '6', ' ', '7', 'D', 'F', 'F']
      = .ok [⟨.temp 1, .decode (.lit 0x7DFF)⟩, ⟨.line 1, .encode (.ref (.temp 1))⟩] := by decide

/-- A state whose implementation has the canonical encoder map and the default decoder map. -/
theorem witness_SampleNanMapsMeetAsListed :
    ∃ s : State, s.params.enc = .canonical ∧ s.params.dec = .specDefault ∧ ∃ t, exec (.decode 0x7DFF) s = .next t :=
  ⟨{ State.reset with params := ⟨.canonical, .specDefault⟩ }, rfl, rfl, _, rfl⟩

end Sys2Proof.Tests
end

section
/-! PROOFS. What rounding to nearest, ties to even gives (00_scope R17): the error of `rneShift` is at most half a
step, an error of exactly half a step leaves an even result, and two different multiples of the step are a whole step
apart. Together they make the result the nearest multiple. -/

namespace Sys2Proof.Machine

/-- The case split of R17's pseudocode, with the shift written as a quotient. -/
theorem rneShift_eq_ite (a k : Nat) :
    rneShift a k =
      if a % 2 ^ k > 2 ^ (k - 1) ∨ (a % 2 ^ k = 2 ^ (k - 1) ∧ a / 2 ^ k % 2 = 1) then a / 2 ^ k + 1 else a / 2 ^ k := by
  simp only [rneShift, Nat.shiftRight_eq_div_pow]

/-- Rounding errs by at most half a step `2 ^ k`, and a tie goes to an even result. -/
theorem rneShift_error {k : Nat} (hk : 1 ≤ k) (a : Nat) :
    2 * |(a : Int) - 2 ^ k * rneShift a k| ≤ 2 ^ k ∧
      (2 * |(a : Int) - 2 ^ k * rneShift a k| = 2 ^ k → rneShift a k % 2 = 0) := by
  have hhalf : 2 * 2 ^ (k - 1) = 2 ^ k := mul_pow_sub_one (by omega) 2
  have hlow : a % 2 ^ k < 2 ^ k := Nat.mod_lt _ (by positivity)
  have hsplit : 2 ^ k * (a / 2 ^ k) + a % 2 ^ k = a := Nat.div_add_mod a (2 ^ k)
  have hcast : (2 : Int) ^ k = (2 ^ k : Nat) := by norm_cast
  rw [rneShift_eq_ite, hcast]
  generalize a / 2 ^ k = q at hsplit ⊢
  generalize a % 2 ^ k = r at hlow hsplit ⊢
  generalize 2 ^ (k - 1) = half at hhalf ⊢
  generalize 2 ^ k = step at hhalf hlow hsplit ⊢
  split_ifs with hup
  · have herr : (a : Int) - step * (q + 1 : Nat) = -(step - r) := by rw [← hsplit]; push_cast; ring
    rw [herr, abs_neg, abs_of_pos (by omega)]
    omega
  · have herr : (a : Int) - step * q = r := by rw [← hsplit]; push_cast; ring
    rw [herr, Nat.abs_cast]
    omega

/-- Two different multiples of `d` lie a whole `d` apart, so their distances from any `a` add up to `d` at least. -/
theorem le_dist_add_dist_of_ne {m n : Nat} (hne : n ≠ m) (a : Int) {d : Int} (hd : 0 ≤ d) :
    d ≤ |a - d * m| + |a - d * n| := by
  have hgap : 1 ≤ |(n : Int) - m| := Int.one_le_abs (by omega)
  calc d ≤ |d * ((n : Int) - m)| := by rw [abs_mul, abs_of_nonneg hd]; exact le_mul_of_one_le_right hd hgap
    _ = |(a - d * m) - (a - d * n)| := by congr 1; ring
    _ ≤ |a - d * m| + |a - d * n| := abs_sub _ _

/-- Settles O5: half a step at most from the result (`rneShift_error`), so half a step at least from every other multiple
(`le_dist_add_dist_of_ne`); where both distances agree they are exactly half a step, a tie. -/
theorem rneShiftRoundsToNearestEven : Obligations.RneShiftRoundsToNearestEven := by
  intro a k hk
  refine ⟨rneShift_eq_ite a k, fun n => ?_⟩
  obtain ⟨hle, heven⟩ := rneShift_error hk a
  by_cases hn : n = rneShift a k
  · subst hn
    exact ⟨le_rfl, fun _ hne => absurd rfl hne⟩
  · have hfar := le_dist_add_dist_of_ne hn a (d := 2 ^ k) (by positivity)
    exact ⟨by linarith, fun htie _ => heven (by linarith)⟩

end Sys2Proof.Machine
end

section
/-! PROOFS. The ports and the frame of an evaluation (10_state R20, R27 to R33). Every evaluation is one shape,
`exec_eq`: drive the unit's input, then file the unit's result, which the NaN maps and the request alone fix. -/

namespace Sys2Proof.Machine

/-! ### The outputs as functions of the inputs -/

/-- A slice of one bit is that bit. -/
theorem extractLsb'_one_eq_ofBool {w : Nat} (x : BitVec w) (i : Nat) :
    x.extractLsb' i 1 = BitVec.ofBool (x.getLsbD i) := by
  ext j hj
  obtain rfl : j = 0 := by omega
  simp

/-- The classifier's outputs, with its input driven (10_state R30). -/
theorem clsBit_of_driven {s : State} {h : Half} (hin : s.clsHIn = some h) (i : Nat) :
    s.clsBit i = some (BitVec.ofBool ((classifyF16 h).getLsbD i)) := by
  simp [State.clsBit, hin, extractLsb'_one_eq_ofBool]

/-- The classifier's outputs have no value before its input is driven (10_state R33, log entry 1). -/
theorem clsBit_of_undriven {s : State} (hin : s.clsHIn = none) (i : Nat) : s.clsBit i = none := by
  simp [State.clsBit, hin]

/-- Equal inputs and parameters give ENC equal outputs. -/
theorem encHOut_congr {s t : State} (hin : t.encF32In = s.encF32In) (hp : t.params = s.params) :
    t.encHOut = s.encHOut := by
  rw [State.encHOut, State.encHOut, hin, hp]

/-- Equal inputs and parameters give DEC equal outputs. -/
theorem decF32Out_congr {s t : State} (hin : t.decHIn = s.decHIn) (hp : t.params = s.params) :
    t.decF32Out = s.decF32Out := by
  rw [State.decF32Out, State.decF32Out, hin, hp]

/-- Equal inputs give CLS equal outputs; it reads no parameter (42_classify R179). -/
theorem clsBit_congr {s t : State} (hin : t.clsHIn = s.clsHIn) (i : Nat) : t.clsBit i = s.clsBit i := by
  rw [State.clsBit, State.clsBit, hin]

/-! ### One shape for every evaluation -/

/-- Drive the input of the request's unit with its operand (30_encoding R67). -/
def State.drive (s : State) : Instr → State
  | .encode f => s.driveEnc f
  | .decode h => s.driveDec h
  | .classify h => s.driveCls h

/-- What the request's unit yields, by the request and the NaN maps alone (10_state R27). -/
def unitResult (p : Params) : Instr → Result
  | .encode f => .half (encodeF32 (encNanOf p.enc) f)
  | .decode h => .single (decodeF16 (decNanOf p.dec) h)
  | .classify h => .cls (classifyF16 h)

/-- An evaluation drives its unit's input and files what the unit yields. -/
theorem exec_eq (i : Instr) (s : State) : exec i s = .next ((s.drive i).file (unitResult s.params i)) := by
  obtain ⟨f, rfl, h⟩ | ⟨h, rfl, h⟩ | ⟨h, rfl, h⟩ := exec_cases i s
  all_goals exact h

/-- The state after an evaluation. -/
theorem eq_of_exec_eq_next {i : Instr} {s t : State} (h : exec i s = .next t) :
    t = (s.drive i).file (unitResult s.params i) := by
  rw [exec_eq] at h
  exact (Host.Outcome.next.inj h).symm

@[simp] theorem State.drive_params (s : State) (i : Instr) : (s.drive i).params = s.params := by cases i <;> rfl
@[simp] theorem State.drive_program (s : State) (i : Instr) : (s.drive i).program = s.program := by cases i <;> rfl
@[simp] theorem State.drive_target (s : State) (i : Instr) : (s.drive i).target = s.target := by cases i <;> rfl
@[simp] theorem State.drive_results (s : State) (i : Instr) : (s.drive i).results = s.results := by cases i <;> rfl

/-- Only ENCODE drives `enc_f32_in` (10_state R31). -/
theorem State.drive_encF32In_of_ne_encode {i : Instr} (hi : ∀ f, i ≠ .encode f) (s : State) :
    (s.drive i).encF32In = s.encF32In := by
  cases i with
  | encode f => exact absurd rfl (hi f)
  | decode h => rfl
  | classify h => rfl

/-- Only DECODE drives `dec_h_in` (10_state R31). -/
theorem State.drive_decHIn_of_ne_decode {i : Instr} (hi : ∀ h, i ≠ .decode h) (s : State) :
    (s.drive i).decHIn = s.decHIn := by
  cases i with
  | encode f => rfl
  | decode h => exact absurd rfl (hi h)
  | classify h => rfl

/-- Only CLASSIFY drives `cls_h_in` (10_state R31). -/
theorem State.drive_clsHIn_of_ne_classify {i : Instr} (hi : ∀ h, i ≠ .classify h) (s : State) :
    (s.drive i).clsHIn = s.clsHIn := by
  cases i with
  | encode f => rfl
  | decode h => rfl
  | classify h => exact absurd rfl (hi h)

/-- The result an evaluation files stands under its target's label. -/
theorem get_target_of_exec_eq_next {i : Instr} {s t : State} (h : exec i s = .next t) :
    t.results.get s.target.label = some (s.target.pick (unitResult s.params i)) := by
  simp [eq_of_exec_eq_next h, results_get_insert_self]

/-! ### The obligations -/

/-- Settles O46: driving a unit's input leaves the other two inputs alone, hence, the parameters being kept, their
outputs; filing writes the map under the target's label only. -/
theorem evaluationFrame : Obligations.EvaluationFrame := by
  intro i s t h
  obtain rfl := eq_of_exec_eq_next h
  have hparams : ((s.drive i).file (unitResult s.params i)).params = s.params := by simp
  refine ⟨hparams, by simp, by simp, fun k hk => ?_, fun hi => ?_, fun hi => ?_, fun hi => ?_⟩
  · simp [results_get_insert_other hk]
  · have hin := State.drive_encF32In_of_ne_encode hi s
    exact ⟨hin, encHOut_congr hin hparams⟩
  · have hin := State.drive_decHIn_of_ne_decode hi s
    exact ⟨hin, decF32Out_congr hin hparams⟩
  · have hin := State.drive_clsHIn_of_ne_classify hi s
    exact ⟨hin, clsBit_congr hin⟩

/-- Settles O47: what is filed is the target's pick of `unitResult`, which reads nothing else of the state than the
NaN maps. -/
theorem equalInputsEqualResults : Obligations.EqualInputsEqualResults := by
  intro i s s' t t' hparams htarget h h'
  rw [get_target_of_exec_eq_next h, get_target_of_exec_eq_next h', hparams, htarget]
  exact ⟨rfl, rfl⟩

/-- Settles O38: each output is its unit's function mapped over the input, so both follow from the input being `some`
or `none`. -/
theorem outputsFollowInputs : Obligations.OutputsFollowInputs := by
  intro s
  refine ⟨fun f hin => ?_, fun h hin => ?_, fun h hin => ?_, fun hin => ?_, fun hin => ?_, fun hin => ?_⟩
  · simp [State.encHOut, hin]
  · simp [State.decF32Out, hin]
  · have hbit := clsBit_of_driven hin
    exact ⟨hbit 0, hbit 1, hbit 2, hbit 3, hbit 4, hbit 5⟩
  · simp [State.encHOut, hin]
  · simp [State.decF32Out, hin]
  · have hbit := clsBit_of_undriven hin
    exact ⟨hbit 0, hbit 1, hbit 2, hbit 3, hbit 4, hbit 5⟩

/-- Settles O39: `State.reset` drives no input, so by O38's undriven case no output has a value. -/
theorem resetDrivesNothing : Obligations.ResetDrivesNothing := by
  obtain ⟨-, -, -, hEnc, hDec, hCls⟩ := outputsFollowInputs State.reset
  exact ⟨⟨rfl, rfl, rfl⟩, ⟨hEnc rfl, hDec rfl, hCls rfl⟩, rfl, rfl, rfl, rfl⟩

end Sys2Proof.Machine
end

section
/-! PROOFS. The host's image of a binary16 value (20_memory R41): a half is its high byte put before its low byte, and
the two byte orders read the same image backwards. -/

namespace Sys2Proof.Machine

/-- Storing in big order is storing in little order with the bytes exchanged. -/
theorem hostStore_big (h : Half) : hostStore .big h = (hostStore .little h).swap := rfl

/-- Loading in big order is loading in little order with the bytes exchanged. -/
theorem hostLoad_big (b : Byte × Byte) : hostLoad .big b = hostLoad .little b.swap := rfl

/-- The little-order image holds every bit of the half. -/
theorem hostLoad_hostStore_little (h : Half) : hostLoad .little (hostStore .little h) = h :=
  calc h.extractLsb' 8 8 ++ h.extractLsb' 0 8
      = h.extractLsb' 0 16 := BitVec.extractLsb'_append_extractLsb'_eq_extractLsb' rfl
    _ = h := BitVec.extractLsb'_eq_self

/-- The little-order image of a loaded half is the bytes it was loaded from. -/
theorem hostStore_hostLoad_little (b : Byte × Byte) : hostStore .little (hostLoad .little b) = b :=
  Prod.ext BitVec.extractLsb'_append_eq_right BitVec.extractLsb'_append_eq_left

/-- Settles O57: the bytes are those the definition names; the round trips are proved in little order, and big order is
little order with the bytes exchanged on both ways. -/
theorem hostImageOfAHalf : Obligations.HostImageOfAHalf := by
  refine ⟨fun h => ⟨rfl, rfl, rfl, rfl⟩, fun o h => ?_, fun o b => ?_⟩
  · cases o with
    | little => exact hostLoad_hostStore_little h
    | big => rw [hostStore_big, hostLoad_big, Prod.swap_swap, hostLoad_hostStore_little]
  · cases o with
    | little => exact hostStore_hostLoad_little b
    | big => rw [hostStore_big, hostLoad_big, hostStore_hostLoad_little, Prod.swap_swap]

end Sys2Proof.Machine
end

section
/-! PROOFS. Repeated and reordered evaluations (20_memory R43, R46). By `exec_eq` an evaluation is a drive and a filing,
so both rules come down to drives and insertions repeating and commuting. -/

namespace Sys2Proof.Machine

/-! ### Insertions into the map of results -/

/-- Writing the same result twice under one label is writing it once; the map need not be in canonical form. -/
theorem results_insert_insert_self (k : Label) (r : Result) (rs : Results) :
    Results.insert k r (Results.insert k r rs) = Results.insert k r rs := by
  induction rs with
  | nil => simp [Results.insert]
  | cons e rest ih =>
    obtain ⟨l, q⟩ := e
    obtain hlt | heq | hgt := lt_trichotomy k.key l.key
    · simp [Results.insert, hlt]
    · simp [Results.insert, heq]
    · simp [Results.insert, hgt, hgt.not_gt, ih]

/-- Writes under different labels commute, the first label being the lower one. -/
theorem results_insert_comm_of_lt {a b : Label} (hab : a.key < b.key) (ra rb : Result) (rs : Results) :
    Results.insert b rb (Results.insert a ra rs) = Results.insert a ra (Results.insert b rb rs) := by
  induction rs with
  | nil => simp [Results.insert, hab, hab.not_gt]
  | cons e rest ih =>
    obtain ⟨l, q⟩ := e
    obtain hal | hal | hla := lt_trichotomy a.key l.key
    · -- `a` goes to the head, wherever `b` goes
      obtain hbl | hbl | hlb := lt_trichotomy b.key l.key
      · simp [Results.insert, hab, hab.not_gt, hal, hbl]
      · simp [Results.insert, hal, hal.not_gt, hbl]
      · simp [Results.insert, hab, hab.not_gt, hal, hlb, hlb.not_gt]
    · -- `a` replaces the head, and `b` goes below it
      have hlb : l.key < b.key := hal ▸ hab
      simp [Results.insert, hal, hlb, hlb.not_gt]
    · -- both go below the head
      have hlb : l.key < b.key := hla.trans hab
      simp [Results.insert, hla, hla.not_gt, hlb, hlb.not_gt, ih]

/-- Writes under different labels commute; the map need not be in canonical form. -/
theorem results_insert_comm {a b : Label} (hab : a ≠ b) (ra rb : Result) (rs : Results) :
    Results.insert b rb (Results.insert a ra rs) = Results.insert a ra (Results.insert b rb rs) := by
  obtain hlt | hgt := lt_or_gt_of_ne (mt Label.key_injective hab)
  · exact results_insert_comm_of_lt hlt ra rb rs
  · exact (results_insert_comm_of_lt hgt rb ra rs).symm

/-! ### Drives and filings -/

/-- Driving a port twice with one value is driving it once. -/
theorem State.drive_drive_self (s : State) (i : Instr) : (s.drive i).drive i = s.drive i := by cases i <;> rfl

/-- Drives of different units commute. -/
theorem State.drive_comm {i j : Instr} (hij : i.op ≠ j.op) (s : State) :
    (s.drive i).drive j = (s.drive j).drive i :=
  match i, j with
  | .encode _, .encode _ => absurd rfl hij
  | .encode f, .decode h => s.driveEnc_driveDec f h
  | .encode f, .classify h => s.driveEnc_driveCls f h
  | .decode h, .encode f => (s.driveEnc_driveDec f h).symm
  | .decode _, .decode _ => absurd rfl hij
  | .decode h, .classify h' => s.driveDec_driveCls h h'
  | .classify h, .encode f => (s.driveEnc_driveCls f h).symm
  | .classify h', .decode h => (s.driveDec_driveCls h h').symm
  | .classify _, .classify _ => absurd rfl hij

/-- A drive does not touch the map a filing writes. -/
theorem State.file_drive (s : State) (r : Result) (i : Instr) : (s.file r).drive i = (s.drive i).file r := by
  cases i <;> rfl

/-- A drive does not touch the program and the target a line begins with. -/
theorem State.beginLine_drive (s : State) (l : Label) (p : Option Predicate) (rest : List Line) (i : Instr) :
    (s.beginLine l p rest).drive i = (s.drive i).beginLine l p rest := by
  cases i <;> rfl

/-- Filing one result twice under one target is filing it once. -/
theorem State.file_file_self (s : State) (r : Result) : (s.file r).file r = s.file r := by
  simp [State.file, results_insert_insert_self]

/-- The state after two lines' evaluations: both drives done first, then both filings, each under its line's label. -/
theorem eq_of_exec_exec_eq_next {i j : Instr} {s t u : State} {a b : Label} {p q : Option Predicate}
    {rest : List Line} (hi : exec i (s.beginLine a p rest) = .next t) (hj : exec j (t.beginLine b q rest) = .next u) :
    u = (((((s.drive i).drive j).beginLine a p rest).file (unitResult s.params i)).beginLine b q rest).file
      (unitResult s.params j) := by
  rw [eq_of_exec_eq_next hj, eq_of_exec_eq_next hi]
  simp [State.beginLine_drive, State.file_drive]

/-! ### The obligations -/

/-- Settles O48: the second evaluation drives and files what the first one did, since the NaN maps and the target are
kept. -/
theorem evaluationIsIdempotent : Obligations.EvaluationIsIdempotent := by
  intro i s t h
  obtain rfl := eq_of_exec_eq_next h
  rw [exec_eq, State.file_drive, State.drive_drive_self, State.file_params, State.drive_params, State.file_file_self]

/-- Settles O49: in either order the map gets both insertions, which commute, and the inputs get both drives, which
commute for different units; the outputs follow from the inputs. -/
theorem evaluationsCommute : Obligations.EvaluationsCommute := by
  intro s ta tab tb tba i j a b p q rest hab hi hij hj hji
  obtain rfl := eq_of_exec_exec_eq_next hi hij
  obtain rfl := eq_of_exec_exec_eq_next hj hji
  refine ⟨by simp [results_insert_comm hab], fun hop => ?_⟩
  rw [State.drive_comm hop]
  exact ⟨rfl, rfl, rfl, encHOut_congr rfl rfl, decF32Out_congr rfl rfl, clsBit_congr rfl⟩

end Sys2Proof.Machine
end

section
/-! PROOFS. Reading and writing raw requests (30_encoding R67, R68, R71, R72): the decoder answers a request exactly on
the bits the encoder writes for it (`decodeRequest_eq_ok_iff`). -/

namespace Sys2Proof

/-- An operand is read from the bits that write it, and from no other bit string. -/
theorem operandOfBits_eq_ok_iff {w : Nat} {bits : List Bool} {v : BitVec w} :
    operandOfBits w bits = .ok v ↔ bits = bitsOf w v.toNat := by
  constructor
  · intro h
    unfold operandOfBits at h
    split at h
    · next hlen =>
      subst hlen
      obtain rfl := Except.ok.inj h
      have hback := bitsOf_natOfBits bits 0
      rw [zero_mul, add_zero] at hback
      rw [BitVec.toNat_ofNat, Nat.mod_eq_of_lt (natOfBits_lt bits), hback]
    · cases h
  · rintro rfl
    rw [operandOfBits, if_pos (length_bitsOf _ _), natOfBits_bitsOf, Nat.mod_eq_of_lt v.isLt, BitVec.ofNat_toNat,
      BitVec.setWidth_eq]

/-- An operand is read from every bit string of its width. -/
theorem exists_operandOfBits {w : Nat} {bits : List Bool} (h : bits.length = w) :
    ∃ v : BitVec w, operandOfBits w bits = .ok v :=
  ⟨_, if_pos h⟩

/-- The value under an `Except.map`. -/
theorem exceptMap_eq_ok_iff {ε α β : Type} {g : α → β} {x : Except ε α} {b : β} :
    x.map g = .ok b ↔ ∃ a, x = .ok a ∧ g a = b := by
  cases x <;> simp [Except.map]

@[simp] theorem encodeRequest_encode (f : Single) :
    encodeRequest (.encode f) = false :: false :: bitsOf 32 f.toNat := by
  simp [Laws.RequestShape.encodeRequest_cons, Instr.op, Instr.operandBits]

@[simp] theorem encodeRequest_decode (h : Half) :
    encodeRequest (.decode h) = false :: true :: bitsOf 16 h.toNat := by
  simp [Laws.RequestShape.encodeRequest_cons, Instr.op, Instr.operandBits]

@[simp] theorem encodeRequest_classify (h : Half) :
    encodeRequest (.classify h) = true :: false :: bitsOf 16 h.toNat := by
  simp [Laws.RequestShape.encodeRequest_cons, Instr.op, Instr.operandBits]

/-- The decoder answers `i` on the bits of `i` and on no other bit string: no bit of a request is dropped or ignored. -/
theorem decodeRequest_eq_ok_iff {bits : List Bool} {i : Instr} :
    decodeRequest bits = .ok i ↔ bits = encodeRequest i := by
  constructor
  · intro h
    unfold decodeRequest at h
    split at h
    case h_1 | h_2 | h_3 =>
      obtain ⟨v, hv, rfl⟩ := exceptMap_eq_ok_iff.mp h
      simpa using operandOfBits_eq_ok_iff.mp hv
    case h_4 | h_5 | h_6 => cases h
  · rintro rfl
    cases i <;> simp [decodeRequest, exceptMap_eq_ok_iff, operandOfBits_eq_ok_iff]

/-- Settles O6: the encoder's bits are the ones the decoder answers `i` on. -/
theorem decodeOfEncodeIsTheRequest : Obligations.DecodeOfEncodeIsTheRequest :=
  fun _ _ => decodeRequest_eq_ok_iff.mpr rfl

/-- Settles O7: the decoder answers `i` on the encoder's bits only. -/
theorem encodeOfDecodeIsTheBits : Obligations.EncodeOfDecodeIsTheBits :=
  fun _ _ h => (decodeRequest_eq_ok_iff.mp h).symm

/-- The static check of a raw request (30_encoding R68, R71) is that it decodes. -/
theorem requestWf_iff_exists_decode {bits : List Bool} : requestWf bits = true ↔ ∃ i, decodeRequest bits = .ok i := by
  constructor
  · intro h
    unfold requestWf at h
    split at h
    case h_1 | h_2 | h_3 =>
      obtain ⟨v, hv⟩ := exists_operandOfBits (beq_iff_eq.mp h)
      exact ⟨_, exceptMap_eq_ok_iff.mpr ⟨v, hv, rfl⟩⟩
    case h_4 => cases h
  · rintro ⟨i, h⟩
    rw [decodeRequest_eq_ok_iff.mp h]
    cases i <;> simp [requestWf, length_bitsOf]

/-- Settles O8: what decodes is what passes `requestWf`, whose branches are the three ops with their lengths. -/
theorem requestsAreExactlyTheseBitStrings : Obligations.RequestsAreExactlyTheseBitStrings := by
  refine ⟨fun bits => ?_, fun operand => rfl⟩
  rw [← requestWf_iff_exists_decode]
  match bits with
  | [] | [_] => simp [requestWf]
  | b₁ :: b₀ :: operand => cases b₁ <;> cases b₀ <;> simp [requestWf]

/-- Settles O9: each word is what the encoder writes for the request it is listed with. -/
theorem sampleRequestWordsDecode : Obligations.SampleRequestWordsDecode :=
  ⟨decodeRequest_eq_ok_iff.mpr (by decide), decodeRequest_eq_ok_iff.mpr (by decide),
    decodeRequest_eq_ok_iff.mpr (by decide)⟩

end Sys2Proof
end

section
/-! PROOFS. The fields of the two formats and the classes they give (30_encoding R60 to R63, R66). The magnitude bits of
a pattern are `E * 2 ^ k + M`, so each condition on the fields is a range of magnitudes. -/

namespace Sys2Proof.Machine

/-! ### Fields -/

/-- Settles O1: each field is a slice, and slices that meet are put back together by `++`. -/
theorem fieldsLieWhereTheFormatsSay : Obligations.FieldsLieWhereTheFormatsSay := by
  refine ⟨fun f i => ?_, fun h i => ?_, fun f => ?_, fun h => ?_⟩
  · simp [sign32, exp32, man32]
  · simp [sign16, exp16, man16]
  · calc f.extractLsb' 31 1 ++ f.extractLsb' 23 8 ++ f.extractLsb' 0 23
        = f.extractLsb' 23 9 ++ f.extractLsb' 0 23 :=
          congrArg (· ++ f.extractLsb' 0 23) (BitVec.extractLsb'_append_extractLsb'_eq_extractLsb' rfl)
      _ = f.extractLsb' 0 32 := BitVec.extractLsb'_append_extractLsb'_eq_extractLsb' rfl
      _ = f := BitVec.extractLsb'_eq_self
  · calc h.extractLsb' 15 1 ++ h.extractLsb' 10 5 ++ h.extractLsb' 0 10
        = h.extractLsb' 10 6 ++ h.extractLsb' 0 10 :=
          congrArg (· ++ h.extractLsb' 0 10) (BitVec.extractLsb'_append_extractLsb'_eq_extractLsb' rfl)
      _ = h.extractLsb' 0 16 := BitVec.extractLsb'_append_extractLsb'_eq_extractLsb' rfl
      _ = h := BitVec.extractLsb'_eq_self

/-- `f[30:0]` is the exponent over the mantissa (30_encoding R60). -/
theorem magnitude32_eq (f : Single) : f.toNat % 2 ^ 31 = (exp32 f).toNat * 2 ^ 23 + (man32 f).toNat := by
  simp only [exp32, man32, BitVec.extractLsb'_toNat, Nat.shiftRight_eq_div_pow]
  omega

/-- `h[14:0]` is the exponent over the mantissa (30_encoding R61). -/
theorem magnitude16_eq (h : Half) : h.toNat % 2 ^ 15 = (exp16 h).toNat * 2 ^ 10 + (man16 h).toNat := by
  simp only [exp16, man16, BitVec.extractLsb'_toNat, Nat.shiftRight_eq_div_pow]
  omega

/-- The top bit of a number of `n + 1` bits says whether it reaches `2 ^ n`. -/
theorem getLsbD_top_iff {n : Nat} (x : BitVec (n + 1)) : x.getLsbD n = true ↔ 2 ^ n ≤ x.toNat := by
  have hmsb := BitVec.msb_eq_decide x
  rw [BitVec.msb_eq_getLsbD_last, Nat.add_sub_cancel] at hmsb
  rw [hmsb, decide_eq_true_iff]

/-! ### Classes -/

/-- The class that an exponent and a mantissa give, `top` being the all-ones exponent and `quiet` the mantissa from which
its top bit is set (30_encoding R62, R63). -/
def classOf (top quiet E M : Nat) : FpClass :=
  if E = 0 then if M = 0 then .zero else .subnormal
  else if E = top then if M = 0 then .infinity else if quiet ≤ M then .quietNan else .signallingNan
  else .normal

theorem class32_eq (f : Single) : class32 f = classOf 255 (2 ^ 22) (exp32 f).toNat (man32 f).toNat := by
  simp only [class32, classOf, ← BitVec.toNat_inj, getLsbD_top_iff]
  rfl

theorem class16_eq (h : Half) : class16 h = classOf 31 (2 ^ 9) (exp16 h).toNat (man16 h).toNat := by
  simp only [class16, classOf, ← BitVec.toNat_inj, getLsbD_top_iff]
  rfl

/-- The condition on the fields under which each class holds. -/
theorem classOf_eq_iff {top quiet E M : Nat} (htop : 0 < top) (hquiet : 0 < quiet) (hE : E ≤ top) :
    (classOf top quiet E M = .zero ↔ E = 0 ∧ M = 0) ∧
    (classOf top quiet E M = .subnormal ↔ E = 0 ∧ M ≠ 0) ∧
    (classOf top quiet E M = .normal ↔ 1 ≤ E ∧ E ≤ top - 1) ∧
    (classOf top quiet E M = .infinity ↔ E = top ∧ M = 0) ∧
    (classOf top quiet E M = .quietNan ↔ E = top ∧ quiet ≤ M) ∧
    (classOf top quiet E M = .signallingNan ↔ E = top ∧ ¬ quiet ≤ M ∧ M ≠ 0) := by
  unfold classOf
  split_ifs
  all_goals
    simp only [true_iff, false_iff]
    omega

/-- Settles O2: the class is `classOf` of the fields, and each condition on the fields is a range of
`E * 2 ^ 23 + M`. -/
theorem singleClassesByPattern : Obligations.SingleClassesByPattern := by
  intro f
  have hM := (man32 f).isLt
  have hE : (exp32 f).toNat ≤ 255 := Nat.le_of_lt_succ (exp32 f).isLt
  have hfields := classOf_eq_iff (quiet := 2 ^ 22) (M := (man32 f).toNat) (by decide) (by decide) hE
  rw [← class32_eq] at hfields
  obtain ⟨hzero, hsub, hnormal, hinf, hquiet, hsnan⟩ := hfields
  simp only [magnitude32_eq, ← Bool.not_eq_true, getLsbD_top_iff]
  exact ⟨hzero, hsub, hnormal, hinf, hquiet, hsnan, hzero.trans (by omega), hsub.trans (by omega),
    hnormal.trans (by omega), hinf.trans (by omega), hquiet.trans (by omega), hsnan.trans (by omega)⟩

/-- The condition on the fields under which each class of binary16 patterns holds. -/
theorem class16_eq_iff_fields (h : Half) :
    (class16 h = .zero ↔ (exp16 h).toNat = 0 ∧ (man16 h).toNat = 0) ∧
    (class16 h = .subnormal ↔ (exp16 h).toNat = 0 ∧ (man16 h).toNat ≠ 0) ∧
    (class16 h = .normal ↔ 1 ≤ (exp16 h).toNat ∧ (exp16 h).toNat ≤ 30) ∧
    (class16 h = .infinity ↔ (exp16 h).toNat = 31 ∧ (man16 h).toNat = 0) ∧
    (class16 h = .quietNan ↔ (exp16 h).toNat = 31 ∧ 2 ^ 9 ≤ (man16 h).toNat) ∧
    (class16 h = .signallingNan ↔ (exp16 h).toNat = 31 ∧ ¬ 2 ^ 9 ≤ (man16 h).toNat ∧ (man16 h).toNat ≠ 0) := by
  rw [class16_eq]
  exact classOf_eq_iff (by decide) (by decide) (Nat.le_of_lt_succ (exp16 h).isLt)

/-! ### How many binary16 patterns each class has -/

/-- Below `2 * N`, twice as many numbers have their remainder by `N` in an interval as the interval holds. -/
theorem count_mod_interval {lo hi N : Nat} (hhi : hi < N) :
    Nat.count (fun n => lo ≤ n % N ∧ n % N ≤ hi) (N + N) = 2 * (hi + 1 - lo) := by
  have hfilter : (Finset.range N).filter (fun n => lo ≤ n % N ∧ n % N ≤ hi) = Finset.Icc lo hi := by
    ext n
    simp only [Finset.mem_filter, Finset.mem_range, Finset.mem_Icc]
    constructor
    · rintro ⟨hn, h⟩
      rwa [Nat.mod_eq_of_lt hn] at h
    · rintro ⟨hlo, hn⟩
      have hlt := hn.trans_lt hhi
      rw [Nat.mod_eq_of_lt hlt]
      exact ⟨hlt, hlo, hn⟩
  simp only [Nat.count_add, Nat.add_mod_left]
  rw [Nat.count_eq_card_filter_range, hfilter, Nat.card_Icc, two_mul]

/-- The first and the last magnitude of each class of binary16 patterns (30_encoding R63). -/
def magnitudeRange16 : FpClass → Nat × Nat
  | .zero => (0, 0)
  | .subnormal => (0x0001, 0x03FF)
  | .normal => (0x0400, 0x7BFF)
  | .infinity => (0x7C00, 0x7C00)
  | .quietNan => (0x7E00, 0x7FFF)
  | .signallingNan => (0x7C01, 0x7DFF)

/-- A binary16 class is a range of magnitudes. -/
theorem class16_eq_iff_range (h : Half) (c : FpClass) :
    class16 h = c ↔ (magnitudeRange16 c).1 ≤ h.toNat % 2 ^ 15 ∧ h.toNat % 2 ^ 15 ≤ (magnitudeRange16 c).2 := by
  have hM := (man16 h).isLt
  have hE : (exp16 h).toNat ≤ 31 := Nat.le_of_lt_succ (exp16 h).isLt
  obtain ⟨hzero, hsub, hnormal, hinf, hquiet, hsnan⟩ := class16_eq_iff_fields h
  rw [magnitude16_eq]
  cases c <;> simp only [magnitudeRange16, hzero, hsub, hnormal, hinf, hquiet, hsnan]
  all_goals omega

/-- A class holds of its range's many patterns, once for each sign. -/
theorem countP_class16 (c : FpClass) :
    ((List.range 65536).countP fun n => class16 (BitVec.ofNat 16 n) == c) =
      2 * ((magnitudeRange16 c).2 + 1 - (magnitudeRange16 c).1) := by
  have hhi : (magnitudeRange16 c).2 < 2 ^ 15 := by cases c <;> decide
  rw [← count_mod_interval hhi, Nat.count]
  refine List.countP_congr fun n hn => ?_
  have hlt : n < 2 ^ 16 := List.mem_range.mp hn
  simp only [beq_iff_eq, decide_eq_true_iff, class16_eq_iff_range, BitVec.toNat_ofNat, Nat.mod_eq_of_lt hlt]

/-- Settles O3: the conditions are those of `classOf`, the ranges those of `magnitudeRange16`, whose lengths count the
patterns. -/
theorem halfClassesByPattern : Obligations.HalfClassesByPattern := by
  refine ⟨fun h => ?_, countP_class16 .zero, countP_class16 .subnormal, countP_class16 .normal, countP_class16 .infinity,
    countP_class16 .quietNan, countP_class16 .signallingNan⟩
  obtain ⟨hzero, hsub, hnormal, hinf, hquiet, hsnan⟩ := class16_eq_iff_fields h
  simp only [← Bool.not_eq_true, getLsbD_top_iff]
  exact ⟨hzero, hsub, hnormal, hinf, hquiet, hsnan,
    (class16_eq_iff_range h .zero).trans (by simp only [magnitudeRange16]; omega),
    class16_eq_iff_range h .subnormal, class16_eq_iff_range h .normal,
    (class16_eq_iff_range h .infinity).trans (by simp only [magnitudeRange16]; omega),
    (class16_eq_iff_range h .quietNan).trans (by simp only [magnitudeRange16]; omega),
    class16_eq_iff_range h .signallingNan⟩

/-! ### The named constants -/

/-- The value of a positive subnormal (00_scope R18). -/
theorem val16_of_subnormal {h : Half} {M : Nat} (hs : sign16 h = 0) (he : exp16 h = 0) (hm : (man16 h).toNat = M) :
    val16 h = .num (M * 2 ^ (-24 : ℤ)) := by
  simp [val16, num16, signFactor, hs, he, hm]

/-- The value of a positive normal number (00_scope R18). -/
theorem val16_of_normal {h : Half} {E M : Nat} (hE : 1 ≤ E ∧ E ≤ 30) (hs : sign16 h = 0) (he : (exp16 h).toNat = E)
    (hm : (man16 h).toNat = M) : val16 h = .num (2 ^ (E - 15 : ℤ) * (1 + M / 2 ^ 10)) := by
  have h0 : exp16 h ≠ 0 := by
    rw [ne_eq, ← BitVec.toNat_inj, he]
    exact Nat.ne_of_gt hE.1
  have h31 : exp16 h ≠ 31 := by
    rw [ne_eq, ← BitVec.toNat_inj, he]
    exact Nat.ne_of_lt (Nat.lt_succ_of_le hE.2)
  rw [val16, if_neg h31, num16, if_neg h0]
  simp [signFactor, hs, he, hm]

/-- Settles O4: the fields of each constant are computed, and its class and value follow from them. -/
theorem namedConstantsHaveTheirValues : Obligations.NamedConstantsHaveTheirValues := by
  refine ⟨⟨rfl, by decide, by decide⟩, ⟨rfl, by decide, by decide⟩, ⟨rfl, by decide, by decide⟩,
    ⟨rfl, by decide, by decide⟩, ⟨rfl, by decide, ?_⟩, ⟨rfl, by decide, ?_⟩, ⟨rfl, by decide, ?_⟩,
    ⟨rfl, by decide, ?_⟩⟩
  · have hval := val16_of_subnormal (h := halfMin) (M := 1) (by decide) (by decide) (by decide)
    exact hval.trans (by norm_num)
  · have hval := val16_of_normal (h := halfNrmMin) (E := 1) (M := 0) (by decide) (by decide) (by decide) (by decide)
    exact hval.trans (by norm_num)
  · have hval := val16_of_normal (h := halfMax) (E := 30) (M := 1023) (by decide) (by decide) (by decide) (by decide)
    exact hval.trans (by norm_num)
  · have hval := val16_of_normal (h := halfEpsilon) (E := 5) (M := 0) (by decide) (by decide) (by decide) (by decide)
    exact hval.trans (by norm_num)

end Sys2Proof.Machine
end

section
/-! PROOFS. What a step does with the next line (30_encoding R67, R73 to R75): the line resolves to a request, or is
refused, and the step is the evaluation of that request (`step_eq_exec`). The obligations about single lines follow by
saying what each kind of line resolves to. -/

namespace Sys2Proof.Machine

/-! ### The step of a line -/

theorem step_of_program_nil {s : State} (hp : s.program = []) : step s = .next s := by
  simp [step, hp]

/-- The step of a line that resolves is the evaluation of the request it resolves to. -/
theorem step_eq_exec {s : State} {l : Line} {rest : List Line} {i : Instr} {select : Option Predicate}
    (hp : s.program = l :: rest) (hr : s.resolve l = .ok (i, select)) :
    step s = exec i (s.beginLine l.label select rest) := by
  simp [step, hp, hr]

/-- The step of a line that does not resolve is its refusal. -/
theorem step_eq_refused {s : State} {l : Line} {rest : List Line} {r : Refusal} (hp : s.program = l :: rest)
    (hr : s.resolve l = .error r) : step s = .refused r := by
  simp [step, hp, hr]

/-- A line under an accepted label resolves as its right-hand side does. -/
theorem resolve_of_acceptsLabel {s : State} {label : Label} (hl : s.acceptsLabel label = true) (op : LineOp) :
    s.resolve { label := label, op := op } = s.resolveOp op :=
  if_pos hl

/-- A raw request resolves exactly to what its bits decode to, with no selection. -/
theorem resolveOp_request_eq_ok_iff {s : State} {bits : List Bool} {i : Instr} {select : Option Predicate} :
    s.resolveOp (.request bits) = .ok (i, select) ↔ decodeRequest bits = .ok i ∧ select = none := by
  rw [State.resolveOp]
  cases decodeRequest bits <;> simp [eq_comm]

/-- The step of a raw request that decodes, under an accepted label. -/
theorem step_request {s : State} {label : Label} {bits : List Bool} {rest : List Line} {i : Instr}
    (hp : s.program = { label := label, op := .request bits } :: rest) (hl : s.acceptsLabel label = true)
    (hi : decodeRequest bits = .ok i) : step s = exec i (s.beginLine label none rest) :=
  step_eq_exec hp ((resolve_of_acceptsLabel hl _).trans (resolveOp_request_eq_ok_iff.mpr ⟨hi, rfl⟩))

/-- Settles O40: the definition of a step, read on a line that resolves, and on a raw request, which resolves to what its
bits decode to. -/
theorem stepRunsTheNextLine : Obligations.StepRunsTheNextLine :=
  ⟨fun _ _ _ _ _ hp hr => step_eq_exec hp hr, fun _ _ _ _ _ hp hl hi _ => step_request hp hl hi⟩

/-- Settles O41: a step's own case for a program with no line. -/
theorem endedProgramStays : Obligations.EndedProgramStays :=
  fun _ hp => step_of_program_nil hp

/-- Placing a request changes the program only, which beginning a line replaces. -/
theorem placeRequest_beginLine (s : State) (bits : List Bool) (label : Label) (select : Option Predicate)
    (rest : List Line) : (s.placeRequest bits).beginLine label select rest = s.beginLine label select rest := rfl

/-- Settles O42: the placed request is the next line, under a label above those of all results, and decodes to `i`. -/
theorem placedRequestIsTheNextEvaluation : Obligations.PlacedRequestIsTheNextEvaluation := by
  intro s nbits w i hi
  obtain ⟨label, hl, hp⟩ := placeRequest_program s (tableRequest nbits w)
  have hdecode : decodeRequest (tableRequest nbits w) = .ok i := by
    unfold decodeTableWord at hi
    cases hd : decodeRequest (tableRequest nbits w) <;> simp_all [Except.toOption]
  exact ⟨label, hl, step_request (s := s.placeRequest _) hp hl hdecode⟩

/-- Settles O45: an evaluation drives its unit's input, of which the output is the unit's function, and files what the
unit yields. -/
theorem evaluationDrivesAndReads : Obligations.EvaluationDrivesAndReads := by
  refine ⟨fun f s => ?_, fun h s => ?_, fun h s => ?_⟩
  · exact ⟨_, _, exec_eq (.encode f) s, rfl, rfl, get_target_of_exec_eq_next (exec_eq (.encode f) s)⟩
  · exact ⟨_, _, exec_eq (.decode h) s, rfl, rfl, get_target_of_exec_eq_next (exec_eq (.decode h) s)⟩
  · exact ⟨_, _, exec_eq (.classify h) s, rfl, fun _ => rfl, get_target_of_exec_eq_next (exec_eq (.classify h) s)⟩

/-! ### Operands -/

/-- A right-hand side whose operand has a value is evaluated on it. -/
theorem step_eq_exec_of_operand {α : Type} {s : State} {label : Label} {op : LineOp} {rest : List Line}
    {operand : Except Refusal α} {i : α → Instr} {select : Option Predicate} {v : α}
    (hp : s.program = { label := label, op := op } :: rest) (hl : s.acceptsLabel label = true)
    (hop : s.resolveOp op = operand.map fun v => (i v, select)) (hv : operand = .ok v) :
    step s = exec (i v) (s.beginLine label select rest) :=
  step_eq_exec hp (by rw [resolve_of_acceptsLabel hl, hop, hv]; rfl)

/-- A right-hand side whose operand has none is refused as its operand is. -/
theorem step_eq_refused_of_operand {α : Type} {s : State} {label : Label} {op : LineOp} {rest : List Line}
    {operand : Except Refusal α} {i : α → Instr} {select : Option Predicate} {r : Refusal}
    (hp : s.program = { label := label, op := op } :: rest) (hl : s.acceptsLabel label = true)
    (hop : s.resolveOp op = operand.map fun v => (i v, select)) (hr : operand = .error r) :
    step s = .refused r :=
  step_eq_refused hp (by rw [resolve_of_acceptsLabel hl, hop, hr]; rfl)

theorem operand32_ref_of_single {s : State} {k : Label} {f : Single} (h : s.results.get k = some (.single f)) :
    s.operand32 (.ref k) = .ok f := by
  simp [State.operand32, h]

theorem operand32_ref_of_kind_ne {s : State} {k : Label} {r : Result} (h : s.results.get k = some r)
    (hr : r.kind ≠ .single) : s.operand32 (.ref k) = .error (.operandWidth k) := by
  cases r <;> simp_all [State.operand32, Result.kind]

theorem operand32_ref_of_none {s : State} {k : Label} (h : s.results.get k = none) :
    s.operand32 (.ref k) = .error (.operandNotDefined k) := by
  simp [State.operand32, h]

theorem operand16_ref_of_half {s : State} {k : Label} {h : Half} (hk : s.results.get k = some (.half h)) :
    s.operand16 (.ref k) = .ok h := by
  simp [State.operand16, hk]

theorem operand16_ref_of_kind_ne {s : State} {k : Label} {r : Result} (h : s.results.get k = some r)
    (hr : r.kind ≠ .half) : s.operand16 (.ref k) = .error (.operandWidth k) := by
  cases r <;> simp_all [State.operand16, Result.kind]

theorem operand16_ref_of_none {s : State} {k : Label} (h : s.results.get k = none) :
    s.operand16 (.ref k) = .error (.operandNotDefined k) := by
  simp [State.operand16, h]

/-- What a right-hand side with a 16-bit operand `%<k>` does, by the result under k: one argument for DECODE, CLASSIFY and
the predicates. -/
theorem step_of_ref16 {s : State} {label k : Label} {op : LineOp} {rest : List Line} {i : Half → Instr}
    {select : Option Predicate} (hp : s.program = { label := label, op := op } :: rest)
    (hl : s.acceptsLabel label = true)
    (hop : s.resolveOp op = (s.operand16 (.ref k)).map fun h => (i h, select)) :
    (∀ h, s.results.get k = some (.half h) → step s = exec (i h) (s.beginLine label select rest)) ∧
    (∀ r, s.results.get k = some r → r.kind ≠ .half → step s = .refused (.operandWidth k)) ∧
    (s.results.get k = none → step s = .refused (.operandNotDefined k)) :=
  ⟨fun _ hk => step_eq_exec_of_operand hp hl hop (operand16_ref_of_half hk),
    fun _ hk hr => step_eq_refused_of_operand hp hl hop (operand16_ref_of_kind_ne hk hr),
    fun hk => step_eq_refused_of_operand hp hl hop (operand16_ref_of_none hk)⟩

/-- Settles O54: a line is evaluated on its operand's value, or refused as its operand is; a literal is its own value, and
`%<k>` has one exactly where the result under k has the operand's kind. -/
theorem operandsFeedWhereTheirWidthFits : Obligations.OperandsFeedWhereTheirWidthFits := by
  refine ⟨fun s l k rest hp hl => ?_, fun s l k rest hp hl => step_of_ref16 hp hl rfl,
    fun s l k rest hp hl => step_of_ref16 hp hl rfl, fun s l k p rest hp hl => step_of_ref16 hp hl rfl,
    fun s l rest hl => ?_, fun s l rest hp hl => ?_⟩
  · exact ⟨fun f hk => step_eq_exec_of_operand hp hl rfl (operand32_ref_of_single hk),
      fun r hk hr => step_eq_refused_of_operand hp hl rfl (operand32_ref_of_kind_ne hk hr),
      fun hk => step_eq_refused_of_operand hp hl rfl (operand32_ref_of_none hk)⟩
  · exact ⟨fun f hp => step_eq_exec_of_operand hp hl rfl rfl, fun h hp => step_eq_exec_of_operand hp hl rfl rfl,
      fun h hp => step_eq_exec_of_operand hp hl rfl rfl, fun p h hp => step_eq_exec_of_operand hp hl rfl rfl⟩
  · exact step_eq_refused hp (by simp [State.resolve, hl])

/-! ### The pseudo-operations -/

/-- A 16-bit operand has the value of its literal, or of ENCODE's result under its label. -/
theorem operand16_eq_ok {s : State} {x : Operand 16} {h : Half}
    (hx : x = .lit h ∨ ∃ k, x = .ref k ∧ s.results.get k = some (.half h)) : s.operand16 x = .ok h := by
  obtain rfl | ⟨k, rfl, hk⟩ := hx
  · rfl
  · exact operand16_ref_of_half hk

/-- The evaluation a line asks for: the lines after it stay, and under its label stands what the line picks of the
unit's result. -/
theorem exec_beginLine (i : Instr) (s : State) (label : Label) (select : Option Predicate) (rest : List Line) :
    ∃ t, exec i (s.beginLine label select rest) = .next t ∧ t.program = rest ∧ t.params = s.params ∧
      t.results = s.results.insert label (Target.pick { label := label, select := select } (unitResult s.params i)) :=
  ⟨_, exec_eq _ _, by simp, by simp, by simp⟩

theorem acceptsLabel_iff {s : State} {label : Label} :
    s.acceptsLabel label = true ↔ ∀ e ∈ s.results, e.1.key < label.key := by
  simp [State.acceptsLabel]

/-- A label above one that was accepted is accepted after a result is filed under that one. -/
theorem acceptsLabel_of_results_eq_insert {s t : State} {a b : Label} {r : Result}
    (ht : t.results = s.results.insert a r) (ha : s.acceptsLabel a = true) (hlt : a.key < b.key) :
    t.acceptsLabel b = true := by
  rw [acceptsLabel_iff] at ha ⊢
  intro e he
  rw [ht] at he
  obtain rfl | he := results_mem_insert he
  · exact hlt
  · exact (ha e he).trans hlt

/-- Settles O55: a predicate's line is CLASSIFY of its operand, filed through `Target.pick`, whose bit indices are the
table's; ROUNDTRIP16 is two lines, of which the second finds the first one's result under `.temp n`. -/
theorem pseudoOperationsExpand : Obligations.PseudoOperationsExpand := by
  refine ⟨fun s l x h rest p b hp hl hx hb => ?_, fun s n x h rest hp hl hx => ?_⟩
  · have hindex : classBitIndex p = b := by
      simp only [List.mem_cons, Prod.mk.injEq, List.not_mem_nil, or_false] at hb
      obtain ⟨rfl, rfl⟩ | ⟨rfl, rfl⟩ | ⟨rfl, rfl⟩ | ⟨rfl, rfl⟩ | ⟨rfl, rfl⟩ | ⟨rfl, rfl⟩ := hb <;> rfl
    have hstep := step_eq_exec_of_operand (i := .classify) hp hl rfl (operand16_eq_ok hx)
    obtain ⟨t, ht, hprogram, -, hresults⟩ := exec_beginLine (.classify h) s l (some p) rest
    refine ⟨t, hstep.trans ht, hprogram, ?_⟩
    rw [hresults, results_get_insert_self, ← hindex, ← extractLsb'_one_eq_ofBool]
    rfl
  · have hstep := step_eq_exec_of_operand (i := .decode) hp hl rfl (operand16_eq_ok hx)
    obtain ⟨t, ht, htprogram, htparams, htresults⟩ := exec_beginLine (.decode h) s (.temp n) none
      ({ label := .line n, op := .encode (.ref (.temp n)) } :: rest)
    have hget : t.results.get (.temp n) = some (.single (decodeF16 (decNanOf s.params.dec) h)) := by
      rw [htresults, results_get_insert_self]; rfl
    have haccept : t.acceptsLabel (.line n) = true :=
      acceptsLabel_of_results_eq_insert htresults hl (by simp [Label.key])
    have hstep' := step_eq_exec_of_operand (i := .encode) htprogram haccept rfl (operand32_ref_of_single hget)
    obtain ⟨u, hu, huprogram, -, huresults⟩ := exec_beginLine (.encode _) t (.line n) none rest
    refine ⟨t, u, hstep.trans ht, hstep'.trans hu, huprogram, hget, ?_⟩
    rw [huresults, results_get_insert_self, htparams]
    rfl

end Sys2Proof.Machine
end

section
/-! PROOFS. The invariant of a run (30_encoding R73, R75): the static check of a program after the results so far is what
makes its next line resolve, and filing the line's result leaves the check of the lines after it. -/

namespace Sys2Proof.Machine

/-! ### What a legal right-hand side resolves to -/

/-- An operand that passes the static check for DECODE's results has a value. -/
theorem exists_operand32_of_wf {s : State} {x : Operand 32} (h : x.wf s.results.kinds .single = true) :
    ∃ f, s.operand32 x = .ok f := by
  cases x with
  | lit v => exact ⟨v, rfl⟩
  | ref k =>
    rw [Operand.wf, results_kindOf, beq_iff_eq, Option.map_eq_some_iff] at h
    obtain ⟨r, hr, hkind⟩ := h
    cases r <;> cases hkind
    exact ⟨_, operand32_ref_of_single hr⟩

/-- An operand that passes the static check for ENCODE's results has a value. -/
theorem exists_operand16_of_wf {s : State} {x : Operand 16} (h : x.wf s.results.kinds .half = true) :
    ∃ v, s.operand16 x = .ok v := by
  cases x with
  | lit v => exact ⟨v, rfl⟩
  | ref k =>
    rw [Operand.wf, results_kindOf, beq_iff_eq, Option.map_eq_some_iff] at h
    obtain ⟨r, hr, hkind⟩ := h
    cases r <;> cases hkind
    exact ⟨_, operand16_ref_of_half hr⟩

/-- A right-hand side that passes the static check asks for a request. -/
theorem exists_resolveOp_of_wf {s : State} {op : LineOp} (h : op.wf s.results.kinds = true) :
    ∃ i select, s.resolveOp op = .ok (i, select) := by
  cases op with
  | request bits =>
    obtain ⟨i, hi⟩ := requestWf_iff_exists_decode.mp h
    exact ⟨i, none, resolveOp_request_eq_ok_iff.mpr ⟨hi, rfl⟩⟩
  | encode x =>
    obtain ⟨f, hf⟩ := exists_operand32_of_wf h
    exact ⟨.encode f, none, exceptMap_eq_ok_iff.mpr ⟨f, hf, rfl⟩⟩
  | decode x =>
    obtain ⟨v, hv⟩ := exists_operand16_of_wf h
    exact ⟨.decode v, none, exceptMap_eq_ok_iff.mpr ⟨v, hv, rfl⟩⟩
  | classify x =>
    obtain ⟨v, hv⟩ := exists_operand16_of_wf h
    exact ⟨.classify v, none, exceptMap_eq_ok_iff.mpr ⟨v, hv, rfl⟩⟩
  | predicate p x =>
    obtain ⟨v, hv⟩ := exists_operand16_of_wf h
    exact ⟨.classify v, some p, exceptMap_eq_ok_iff.mpr ⟨v, hv, rfl⟩⟩

/-- The kind of a raw request's result is its operation's. -/
theorem requestKind_encodeRequest (p : Params) (i : Instr) :
    requestKind (encodeRequest i) = (unitResult p i).kind := by
  cases i <;> simp [requestKind, unitResult, Result.kind]

/-- What a line files is of the kind its right-hand side has statically. -/
theorem kind_pick_of_resolveOp {s : State} {op : LineOp} {i : Instr} {select : Option Predicate} (label : Label)
    (p : Params) (h : s.resolveOp op = .ok (i, select)) :
    (Target.pick { label := label, select := select } (unitResult p i)).kind = op.kind := by
  cases op with
  | request bits =>
    obtain ⟨hdecode, rfl⟩ := resolveOp_request_eq_ok_iff.mp h
    rw [decodeRequest_eq_ok_iff.mp hdecode]
    exact (requestKind_encodeRequest p i).symm
  | encode x | decode x | classify x | predicate q x =>
    obtain ⟨v, -, hv⟩ := exceptMap_eq_ok_iff.mp h
    cases hv
    rfl

/-! ### The invariant -/

/-- The invariant of a state with a next line: canonical results, a label above theirs, a legal right-hand side, and a
legal rest after a result of the line's kind. -/
theorem inv_iff_of_program_eq_cons {s : State} {l : Line} {rest : List Line} (hp : s.program = l :: rest) :
    s.inv = true ↔ s.results.wf = true ∧ s.acceptsLabel l.label = true ∧ l.op.wf s.results.kinds = true ∧
      programWf (s.results.kinds ++ [(l.label, l.op.kind)]) rest = true := by
  simp only [State.inv, hp, programWf, results_kinds_below, State.acceptsLabel, Bool.and_eq_true, and_assoc]

/-- A result filed under an accepted label comes last, and so does its kind. -/
theorem kinds_insert_of_acceptsLabel {s : State} {label : Label} (h : s.acceptsLabel label = true) (r : Result) :
    (s.results.insert label r).kinds = s.results.kinds ++ [(label, r.kind)] := by
  rw [results_insert_above (acceptsLabel_iff.mp h)]
  simp [Results.kinds]

/-- Settles O51: the line's label is above those of the results, so what it files comes last in the map, with the kind
the rest of the program was checked after. -/
theorem stepKeepsTheProgramLegal : Obligations.StepKeepsTheProgramLegal := by
  intro s t hinv hstep
  obtain ⟨-, rfl⟩ | ⟨l, rest, i, select, hp, hresolve, hexec⟩ := step_next_cases hstep
  · exact hinv
  · obtain ⟨hresults, hlabel, -, hrest⟩ := (inv_iff_of_program_eq_cons hp).mp hinv
    obtain ⟨-, hop⟩ := resolve_ok hresolve
    obtain ⟨u, hu, huprogram, -, huresults⟩ := exec_beginLine i s l.label select rest
    obtain rfl : u = t := Host.Outcome.next.inj (hu.symm.trans hexec)
    rw [State.inv, huprogram, huresults, kinds_insert_of_acceptsLabel hlabel, kind_pick_of_resolveOp _ _ hop,
      results_wf_insert _ _ hresults, hrest]
    rfl

/-- Settles O52: a line that passes the static check resolves, under a label that is accepted. -/
theorem legalLinesAreNeverRefused : Obligations.LegalLinesAreNeverRefused := by
  intro s hinv
  cases hp : s.program with
  | nil => exact ⟨s, step_of_program_nil hp, hp⟩
  | cons l rest =>
    obtain ⟨-, hlabel, hop, -⟩ := (inv_iff_of_program_eq_cons hp).mp hinv
    obtain ⟨i, select, hresolve⟩ := exists_resolveOp_of_wf hop
    obtain ⟨t, ht, hprogram, -⟩ := exec_beginLine i s l.label select rest
    exact ⟨t, (step_eq_exec hp ((resolve_of_acceptsLabel hlabel l.op).trans hresolve)).trans ht, hprogram⟩

/-- A loaded program is checked after no results. -/
theorem inv_load {p : List Line} (h : programWf [] p = true) (s : State) : (s.load p).inv = true := h

/-- Settles O53: at reset no line is left, and a loaded program is checked after no results. -/
theorem resetAndLoadAreLegal : Obligations.ResetAndLoadAreLegal :=
  ⟨rfl, fun s _ h => inv_load h s⟩

end Sys2Proof.Machine
end

section
/-! PROOFS. Texts read back (30_encoding R73, R74). A printed statement is four words, the label, `=`, the name and the
operand (`wordsOf_printAs`), and each of them is read as what it writes; a printed program is one such line a
statement. -/

namespace Sys2Proof.Machine

/-! ### The words of a statement -/

/-- A text that is one word of a line, outside any comment. -/
def IsWord (w : List Char) : Prop := w ≠ [] ∧ ∀ c ∈ w, isPlain c = true

theorem isBlank_of_isPlain {c : Char} (h : isPlain c = true) : isBlank c = false := by
  simp only [isPlain, Bool.and_eq_true, Bool.not_eq_true'] at h
  exact h.1.1

theorem IsWord.isBlank_eq_false {w : List Char} (h : IsWord w) : ∀ c ∈ w, isBlank c = false :=
  fun c hc => isBlank_of_isPlain (h.2 c hc)

theorem isWord_printLabel (n : Nat) : IsWord (printLabel n) :=
  ⟨List.cons_ne_nil _ _, plain_printLabel n⟩

/-- The operation that a statement's name stands for; a raw request has no name. -/
def mnemonicOf : Stmt → Option Mnemonic
  | .line { label := _, op := .request _ } => none
  | .line { label := _, op := .encode _ } => some .encode
  | .line { label := _, op := .decode _ } => some .decode
  | .line { label := _, op := .classify _ } => some .classify
  | .line { label := _, op := .predicate p _ } => some (.predicate p)
  | .roundtrip16 _ _ => some .roundtrip16

theorem parseMnemonic_predicateName (p : Predicate) :
    parseMnemonic (predicateName p) = some (.predicate p) ∧ IsWord (predicateName p) := by
  cases p <;> exact ⟨rfl, List.cons_ne_nil _ _, List.all_eq_true.mp rfl⟩

/-- Each spelling is read as the operation it names, and is one word. -/
theorem parseMnemonic_of_mem_spellings {st : Stmt} {name : List Char} (h : name ∈ spellings st) :
    parseMnemonic name = mnemonicOf st ∧ IsWord name := by
  match st, h with
  | .line ⟨_, .encode _⟩, h | .line ⟨_, .decode _⟩, h =>
    simp only [spellings, List.mem_cons, List.not_mem_nil, or_false] at h
    obtain rfl | rfl := h <;> exact ⟨rfl, List.cons_ne_nil _ _, List.all_eq_true.mp rfl⟩
  | .line ⟨_, .classify _⟩, h | .roundtrip16 _ _, h =>
    obtain rfl := List.mem_singleton.mp h
    exact ⟨rfl, List.cons_ne_nil _ _, List.all_eq_true.mp rfl⟩
  | .line ⟨_, .predicate p _⟩, h =>
    obtain rfl := List.mem_singleton.mp h
    exact parseMnemonic_predicateName p

/-- A writable statement is read from its number, its operation and its operand's text, which is one word. -/
theorem stmtOf_stmtOperand {st : Stmt} (h : writable st = true) :
    (∃ m, mnemonicOf st = some m ∧ stmtOf (stmtNumber st) m (stmtOperand st) = some st) ∧ IsWord (stmtOperand st) := by
  match st, h with
  | .line ⟨.line n, .encode x⟩, h =>
    obtain ⟨hparse, hword⟩ := parseOperand_printOperand (.inr rfl) h
    exact ⟨⟨_, rfl, by simp [stmtOf, stmtOperand, stmtNumber, hparse]⟩, hword⟩
  | .line ⟨.line n, .decode x⟩, h | .line ⟨.line n, .classify x⟩, h | .line ⟨.line n, .predicate p x⟩, h
  | .roundtrip16 n x, h =>
    obtain ⟨hparse, hword⟩ := parseOperand_printOperand (.inl rfl) h
    exact ⟨⟨_, rfl, by simp [stmtOf, stmtOperand, stmtNumber, hparse]⟩, hword⟩

/-- A writable statement has a first spelling. -/
theorem headD_mem_spellings {st : Stmt} (h : writable st = true) : (spellings st).headD [] ∈ spellings st := by
  match st, h with
  | .line ⟨.line _, .encode _⟩, _ | .line ⟨.line _, .decode _⟩, _ | .line ⟨.line _, .classify _⟩, _
  | .line ⟨.line _, .predicate _ _⟩, _ | .roundtrip16 _ _, _ => exact List.mem_cons_self

/-! ### The text of a statement -/

/-- A printed statement is its four words, whatever follows the last one, as long as that leaves it one word. -/
theorem wordsOf_printAs {name tail : List Char} {st : Stmt} (hname : IsWord name)
    (htail : wordsOf (stmtOperand st ++ tail) = [stmtOperand st]) :
    wordsOf (printAs name st ++ tail) = [printLabel (stmtNumber st), ['='], name, stmtOperand st] := by
  have hlabel := isWord_printLabel (stmtNumber st)
  have htext : printAs name st ++ tail =
      printLabel (stmtNumber st) ++ ' ' :: (['='] ++ ' ' :: (name ++ ' ' :: (stmtOperand st ++ tail))) := by
    simp [printAs]
  rw [htext, wordsOf_append_blank hlabel.1 hlabel.isBlank_eq_false,
    wordsOf_append_blank (List.cons_ne_nil _ _) (List.forall_mem_singleton.mpr rfl),
    wordsOf_append_blank hname.1 hname.isBlank_eq_false, htail]

/-- A character that is neither plain nor a blank between words does not stand in a printed statement. -/
theorem not_mem_printAs {name : List Char} {st : Stmt} (hname : IsWord name) (hoperand : IsWord (stmtOperand st))
    {c : Char} (hc : isPlain c = false) (hblank : c ≠ ' ') : c ∉ printAs name st := by
  have hequals : c ≠ '=' := by rintro rfl; exact absurd hc (by decide)
  have hnot : ∀ {w : List Char}, IsWord w → c ∉ w := fun hw hmem => by simp [hw.2 c hmem] at hc
  simp [printAs, hblank, hequals, hnot hname, hnot hoperand, hnot (isWord_printLabel _)]

/-- A line whose words are read is the statement they make. -/
theorem parseLine_of_words {t l m x : List Char} {n : Nat} {mnemonic : Mnemonic} {st : Stmt}
    (hwords : wordsOf (dropComment t) = [l, ['='], m, x]) (hl : parseLabel l = some n)
    (hm : parseMnemonic m = some mnemonic) (hst : stmtOf n mnemonic x = some st) : parseLine t = .ok [st] := by
  simp [parseLine, hwords, hl, hm, hst]

/-- A line that is, up to its comment, a printed statement is read as the statement. -/
theorem parseLine_of_dropComment {st : Stmt} {name t tail : List Char} (hst : writable st = true)
    (hname : name ∈ spellings st) (ht : dropComment t = printAs name st ++ tail)
    (htail : wordsOf (stmtOperand st ++ tail) = [stmtOperand st]) : parseLine t = .ok [st] := by
  obtain ⟨hmnemonic, hword⟩ := parseMnemonic_of_mem_spellings hname
  obtain ⟨⟨m, hm, hread⟩, -⟩ := stmtOf_stmtOperand hst
  have hwords := wordsOf_printAs hword htail
  rw [← ht] at hwords
  exact parseLine_of_words hwords (parseLabel_printLabel _) (hmnemonic.trans hm) hread

/-- A printed statement is read as itself, alone, before a comment, and before a blank and a comment. -/
theorem parseLine_printAs {st : Stmt} {name : List Char} (comment : List Char) (hst : writable st = true)
    (hname : name ∈ spellings st) :
    parseLine (printAs name st) = .ok [st] ∧
    parseLine (printAs name st ++ '-' :: '-' :: comment) = .ok [st] ∧
    parseLine (printAs name st ++ ' ' :: '-' :: '-' :: comment) = .ok [st] := by
  obtain ⟨-, hword⟩ := parseMnemonic_of_mem_spellings hname
  obtain ⟨-, hoperand⟩ := stmtOf_stmtOperand hst
  have hdash : '-' ∉ printAs name st := not_mem_printAs hword hoperand (by decide) (by decide)
  have hend : wordsOf (stmtOperand st ++ []) = [stmtOperand st] := by
    rw [List.append_nil, wordsOf_word hoperand.1 hoperand.isBlank_eq_false]
  have hblank : wordsOf (stmtOperand st ++ [' ']) = [stmtOperand st] :=
    wordsOf_append_blank hoperand.1 hoperand.isBlank_eq_false []
  refine ⟨parseLine_of_dropComment hst hname ?_ hend, parseLine_of_dropComment hst hname ?_ hend,
    parseLine_of_dropComment hst hname ?_ hblank⟩
  · rw [dropComment_none hdash, List.append_nil]
  · rw [dropComment_append hdash, List.append_nil]
  · have hdash' : '-' ∉ printAs name st ++ [' '] := by simp [hdash]
    have := dropComment_append hdash' comment
    rwa [List.append_assoc] at this

/-! ### The text of a program -/

/-- A printed program is read, line by line, as its statements. -/
theorem parseLines_printProgram {p : List Stmt} (h : ∀ st ∈ p, writable st = true) :
    parseLines (linesOf (printProgram p)) = .ok p := by
  induction p with
  | nil => rfl
  | cons st rest ih =>
    have hst := h st (by simp)
    have hname := headD_mem_spellings hst
    obtain ⟨-, hword⟩ := parseMnemonic_of_mem_spellings hname
    obtain ⟨-, hoperand⟩ := stmtOf_stmtOperand hst
    have hfeed := not_mem_printAs hword hoperand (c := '\n') (by decide) (by decide)
    have htext : printProgram (st :: rest) = printAs ((spellings st).headD []) st ++ '\n' :: printProgram rest := by
      simp [printProgram]
    rw [htext, linesOf_append hfeed, parseLines, (parseLine_printAs [] hst hname).1,
      ih fun st' hmem => h st' (by simp [hmem])]
    rfl

/-- The text of a program assembles to its lines where they are legal, and is refused elsewhere. -/
theorem assemble_printProgram {p : List Stmt} (h : ∀ st ∈ p, writable st = true) :
    assemble (printProgram p) =
      if programWf [] (p.flatMap expand) then .ok (p.flatMap expand) else .error .illegalProgram := by
  rw [assemble, parseLines_printProgram h]

/-- What assembles is legal. -/
theorem programWf_of_assemble {text : List Char} {p : List Line} (h : assemble text = .ok p) :
    programWf [] p = true := by
  unfold assemble at h
  split at h
  · cases h
  · dsimp only at h
    split at h
    · next hwf => cases h; exact hwf
    · cases h

/-- Settles O56: a statement's text is read by `parseLine_printAs`, a program's by `assemble_printProgram`; what
assembles passed the check that `State.inv` asks of a loaded program. -/
theorem printedProgramsAssembleBack : Obligations.PrintedProgramsAssembleBack := by
  refine ⟨fun st name comment hst hname => parseLine_printAs comment hst hname, fun p hp hwf => ?_, fun p hp hwf => ?_,
    fun text p s h => ?_⟩
  · rw [assemble_printProgram hp, if_pos hwf]
  · rw [assemble_printProgram hp, if_neg (by simp [hwf])]
  · have hwf := programWf_of_assemble h
    exact ⟨hwf, inv_load hwf s⟩

end Sys2Proof.Machine
end

section
/-! PROOFS. ENCODE's rounding as an order fact (40_encode R105 to R112). A magnitude is a number of units, and ENCODE's
magnitude for `m` goes above `u` exactly where `m`'s number lies beyond the midpoint of `u` and `u + 1`, or on it with `u`
odd (`lt_encMag_iff`). Monotonicity, nearness and exactness all follow from that. -/

namespace Sys2Proof.Machine

/-- Rounding is the quotient, plus 1 where R17's pseudocode rounds up. -/
theorem rneShift_eq_add (a k : Nat) :
    rneShift a k = a / 2 ^ k +
      if a % 2 ^ k > 2 ^ (k - 1) ∨ (a % 2 ^ k = 2 ^ (k - 1) ∧ a / 2 ^ k % 2 = 1) then 1 else 0 := by
  rw [rneShift_eq_ite, apply_ite (a / 2 ^ k + ·), add_zero]

/-- Rounding goes above `u` exactly from the midpoint of `u` and `u + 1` up, the midpoint itself included where `u` is
odd. -/
theorem lt_rneShift_iff {k : Nat} (hk : 1 ≤ k) (a u : Nat) :
    u < rneShift a k ↔ (2 * u + 1) * 2 ^ k < 2 * a ∨ ((2 * u + 1) * 2 ^ k = 2 * a ∧ u % 2 = 1) := by
  have hhalf : 2 * 2 ^ (k - 1) = 2 ^ k := mul_pow_sub_one (by omega) 2
  have hlow : a % 2 ^ k < 2 ^ k := Nat.mod_lt _ (by positivity)
  have hsplit : 2 ^ k * (a / 2 ^ k) + a % 2 ^ k = a := Nat.div_add_mod a (2 ^ k)
  rw [rneShift_eq_ite]
  generalize a / 2 ^ k = q at hsplit ⊢
  generalize a % 2 ^ k = r at hlow hsplit ⊢
  generalize 2 ^ (k - 1) = half at hhalf ⊢
  generalize 2 ^ k = step at hhalf hlow hsplit ⊢
  have hmid : (2 * u + 1) * step = 2 * (step * u) + step := by ring
  rw [← hsplit, hmid]
  obtain hu | rfl | hu := lt_trichotomy u q
  · have hbelow : step * (u + 1) ≤ step * q := Nat.mul_le_mul_left step hu
    rw [Nat.mul_add] at hbelow
    split_ifs <;> omega
  · split_ifs <;> omega
  · have habove : step * (q + 1) ≤ step * u := Nat.mul_le_mul_left step hu
    rw [Nat.mul_add] at habove
    split_ifs <;> omega

/-! ### Magnitudes as numbers -/

/-- The magnitude of a pattern with `p` mantissa bits as a number, in units of the smallest subnormal: the mantissa, under
the implicit one and scaled by the exponent where the pattern is normal (00_scope R18). -/
def scaled (p m : Nat) : Nat :=
  if m / 2 ^ p = 0 then m % 2 ^ p else (2 ^ p + m % 2 ^ p) * 2 ^ (m / 2 ^ p - 1)

theorem scaled_of_subnormal {p M : Nat} (hM : M < 2 ^ p) : scaled p M = M := by
  rw [scaled, if_pos (Nat.div_eq_of_lt hM), Nat.mod_eq_of_lt hM]

theorem scaled_of_normal {p E M : Nat} (hE : 1 ≤ E) (hM : M < 2 ^ p) :
    scaled p (E * 2 ^ p + M) = (2 ^ p + M) * 2 ^ (E - 1) := by
  have hdiv : (E * 2 ^ p + M) / 2 ^ p = E := by
    rw [mul_comm, Nat.mul_add_div (by positivity), Nat.div_eq_of_lt hM, add_zero]
  rw [scaled, hdiv, if_neg (by omega), Nat.mul_add_mod_self_right, Nat.mod_eq_of_lt hM]

/-- The next pattern's number is one unit in the last place larger, across the end of a binade too. -/
theorem scaled_succ (p m : Nat) : scaled p (m + 1) = scaled p m + 2 ^ (m / 2 ^ p - 1) := by
  have hM : m % 2 ^ p < 2 ^ p := Nat.mod_lt _ (by positivity)
  have hsplit : m / 2 ^ p * 2 ^ p + m % 2 ^ p = m := Nat.div_add_mod' m (2 ^ p)
  generalize m / 2 ^ p = E at *
  generalize m % 2 ^ p = M at *
  subst hsplit
  obtain hnext | hnext : M + 1 < 2 ^ p ∨ M + 1 = 2 ^ p := by omega
  · rw [add_assoc]
    obtain rfl | hE : E = 0 ∨ 1 ≤ E := by omega
    · simp [scaled_of_subnormal, hM, hnext]
    · rw [scaled_of_normal hE hM, scaled_of_normal hE hnext]
      ring
  · have hcarry : E * 2 ^ p + M + 1 = (E + 1) * 2 ^ p + 0 := by rw [add_assoc, hnext]; ring
    rw [hcarry, scaled_of_normal (by omega) (by positivity)]
    obtain rfl | hE : E = 0 ∨ 1 ≤ E := by omega
    · simp [scaled_of_subnormal, hM, hnext]
    · rw [scaled_of_normal hE hM, ← hnext, Nat.add_sub_cancel, ← mul_pow_sub_one (by omega : E ≠ 0) 2]
      ring

/-- Magnitudes are ordered as their numbers are. -/
theorem scaled_strictMono (p : Nat) : StrictMono (scaled p) :=
  strictMono_nat_of_lt_succ fun m => by
    rw [scaled_succ]
    exact Nat.lt_add_of_pos_right (by positivity)

/-- A binary16 magnitude as a number in binary32's units, 2^125 of which make one of binary16's. -/
def scaled16 (t : Nat) : Nat := scaled 10 t * 2 ^ 125

theorem scaled16_strictMono : StrictMono scaled16 :=
  (scaled_strictMono 10).mul_const (by decide)

/-- Twice the midpoint of the numbers of the binary16 magnitudes `u` and `u + 1`, in binary32's units. -/
def midpoint (u : Nat) : Nat := scaled16 u + scaled16 (u + 1)

theorem scaled16_lt_midpoint (u : Nat) : 2 * scaled16 u < midpoint u := by
  have hlt := scaled16_strictMono (Nat.lt_add_one u)
  unfold midpoint
  omega

theorem midpoint_lt_scaled16_succ (u : Nat) : midpoint u < 2 * scaled16 (u + 1) := by
  have hlt := scaled16_strictMono (Nat.lt_add_one u)
  unfold midpoint
  omega

/-- Rounding the number `v` to a binary16 magnitude goes above `u`: `v` is beyond the midpoint of `u` and `u + 1`, or on
it with `u` odd (00_scope R17, 40_encode R112). -/
def Exceeds (v u : Nat) : Prop := midpoint u < 2 * v ∨ (midpoint u = 2 * v ∧ u % 2 = 1)

/-- A factor in common drops out. -/
theorem exceeds_iff_of_scale {v u a b c : Nat} (hc : 0 < c) (hv : v = a * c) (hu : midpoint u = b * c) :
    Exceeds v u ↔ b < 2 * a ∨ (b = 2 * a ∧ u % 2 = 1) := by
  rw [Exceeds, hv, hu, ← mul_assoc, Nat.mul_lt_mul_right hc, Nat.mul_left_inj hc.ne']

/-- Every number from that of `b` up exceeds what lies below `b`. -/
theorem exceeds_of_lt {v b u : Nat} (hb : scaled16 b ≤ v) (hu : u < b) : Exceeds v u := by
  have hmono : scaled16 (u + 1) ≤ scaled16 b := scaled16_strictMono.monotone hu
  have hmid := midpoint_lt_scaled16_succ u
  left
  omega

/-- No number up to that of `b` exceeds `b` or what lies above it. -/
theorem not_exceeds_of_le {v b u : Nat} (hb : v ≤ scaled16 b) (hu : b ≤ u) : ¬ Exceeds v u := by
  have hmono : scaled16 b ≤ scaled16 u := scaled16_strictMono.monotone hu
  have hmid := scaled16_lt_midpoint u
  unfold Exceeds
  omega

/-- Where `v` lies in a stretch of 2^10 magnitudes, only the midpoints of that stretch matter. -/
theorem lt_iff_exceeds_of_stretch {v b t : Nat} (hlo : scaled16 b ≤ v)
    (hhi : v ≤ scaled16 (b + 2 ^ 10)) (ht : b ≤ t ∧ t ≤ b + 2 ^ 10)
    (hin : ∀ w < 2 ^ 10, (b + w < t ↔ Exceeds v (b + w))) (u : Nat) : u < t ↔ Exceeds v u := by
  obtain hu | hu | hu : u < b ∨ (∃ w < 2 ^ 10, u = b + w) ∨ b + 2 ^ 10 ≤ u := by
    by_cases hu : u < b
    · exact .inl hu
    · by_cases hu' : b + 2 ^ 10 ≤ u
      · exact .inr (.inr hu')
      · exact .inr (.inl ⟨u - b, by omega, by omega⟩)
  · exact iff_of_true (by omega) (exceeds_of_lt hlo hu)
  · obtain ⟨w, hw, rfl⟩ := hu
    exact hin w hw
  · exact iff_of_false (by omega) (not_exceeds_of_le hhi hu)

/-! ### ENCODE's magnitude rounds the number -/

/-- The magnitude ENCODE gives for the magnitude `m` of a binary32 pattern but a NaN (40_encode R102, R105 to R111). -/
def encMag (m : Nat) : Nat :=
  if 143 ≤ m / 2 ^ 23 then 0x7C00
  else if 113 ≤ m / 2 ^ 23 then (m / 2 ^ 23 - 112) * 2 ^ 10 + rneShift (m % 2 ^ 23) 13
  else if 102 ≤ m / 2 ^ 23 then rneShift (2 ^ 23 + m % 2 ^ 23) (126 - m / 2 ^ 23)
  else 0

theorem rneShift_normal_le {M : Nat} (hM : M < 2 ^ 23) : rneShift M 13 ≤ 2 ^ 10 := by
  rw [← not_lt, lt_rneShift_iff (by decide)]
  omega

theorem rneShift_subnormal_le {E M : Nat} (hE : E ≤ 112) (hM : M < 2 ^ 23) :
    rneShift (2 ^ 23 + M) (126 - E) ≤ 2 ^ 10 := by
  have hstep : 2 ^ 14 ≤ 2 ^ (126 - E) := Nat.pow_le_pow_right (by decide) (by omega)
  rw [← not_lt, lt_rneShift_iff (by omega)]
  omega

theorem encMag_le (m : Nat) : encMag m ≤ 0x7C00 := by
  have hM : m % 2 ^ 23 < 2 ^ 23 := Nat.mod_lt _ (by decide)
  unfold encMag
  split_ifs
  · exact le_rfl
  · have := rneShift_normal_le hM
    omega
  · have := rneShift_subnormal_le (E := m / 2 ^ 23) (by omega) hM
    omega
  · omega

/-- In the normal regime the stretch is a binade, and `v` and its midpoints have the binade's scale in common. -/
theorem lt_normal_iff_exceeds {e M : Nat} (he : 1 ≤ e) (hM : M < 2 ^ 23) (u : Nat) :
    u < e * 2 ^ 10 + rneShift M 13 ↔ Exceeds (scaled 23 ((e + 112) * 2 ^ 23 + M)) u := by
  have hround := rneShift_normal_le hM
  have hv : scaled 23 ((e + 112) * 2 ^ 23 + M) = (2 ^ 23 + M) * (2 ^ 112 * 2 ^ (e - 1)) := by
    rw [scaled_of_normal (by omega) hM, show e + 112 - 1 = 112 + (e - 1) by omega, pow_add]
  have hnext : scaled 10 (e * 2 ^ 10 + 2 ^ 10) = 2 ^ 11 * 2 ^ (e - 1) := by
    rw [show e * 2 ^ 10 + 2 ^ 10 = (e + 1) * 2 ^ 10 + 0 by ring, scaled_of_normal (by omega) (by decide),
      Nat.add_sub_cancel, ← mul_pow_sub_one (by omega : e ≠ 0) 2]
    ring
  have hfirst : scaled 10 (e * 2 ^ 10) = 2 ^ 10 * 2 ^ (e - 1) := by
    rw [← add_zero (e * 2 ^ 10), scaled_of_normal he (by decide), add_zero]
  have hpos : 0 < 2 ^ 112 * 2 ^ (e - 1) := by positivity
  refine lt_iff_exceeds_of_stretch (b := e * 2 ^ 10) ?_ ?_ (by omega) (fun w hw => ?_) u
  · rw [scaled16, hfirst, hv]; nlinarith
  · rw [scaled16, hnext, hv]; nlinarith
  · have hmid : midpoint (e * 2 ^ 10 + w) = ((2 * w + 1) * 2 ^ 13 + 2 ^ 24) * (2 ^ 112 * 2 ^ (e - 1)) := by
      rw [midpoint, scaled16, scaled16, scaled_succ, scaled_of_normal he hw, mul_comm e, Nat.mul_add_div (by decide),
        Nat.div_eq_of_lt hw, add_zero]
      ring
    rw [Nat.add_lt_add_iff_left, lt_rneShift_iff (by decide), exceeds_iff_of_scale hpos hv hmid]
    omega

/-- In the subnormal regime the stretch is that of binary16's subnormals, whose midpoints are odd multiples of half a
unit. -/
theorem lt_subnormal_iff_exceeds {E M : Nat} (hE : 1 ≤ E) (hE' : E ≤ 112) (hM : M < 2 ^ 23) (u : Nat) :
    u < rneShift (2 ^ 23 + M) (126 - E) ↔ Exceeds (scaled 23 (E * 2 ^ 23 + M)) u := by
  have hround := rneShift_subnormal_le hE' hM
  have hv := scaled_of_normal hE hM
  have hunit : 2 ^ (126 - E) * 2 ^ (E - 1) = 2 ^ 125 := by rw [← pow_add]; congr 1; omega
  have hpos : 0 < 2 ^ (E - 1) := by positivity
  have hle : 2 ^ (E - 1) ≤ 2 ^ 111 := Nat.pow_le_pow_right (by decide) (by omega)
  refine lt_iff_exceeds_of_stretch (b := 0) ?_ ?_ (by omega) (fun w hw => ?_) u
  · exact Nat.zero_le _
  · rw [hv]; exact (Nat.mul_le_mul (show _ ≤ 2 ^ 24 by omega) hle).trans (by decide)
  · have hmid : midpoint (0 + w) = (2 * w + 1) * 2 ^ (126 - E) * 2 ^ (E - 1) := by
      rw [midpoint, scaled16, scaled16, scaled_succ, zero_add, scaled_of_subnormal hw, Nat.div_eq_of_lt hw, mul_assoc,
        hunit]
      ring
    rw [exceeds_iff_of_scale hpos hv hmid, zero_add, lt_rneShift_iff (by omega)]

/-- ENCODE's magnitude goes above `u` where the number of the input does so on rounding. -/
theorem lt_encMag_iff {u : Nat} (hu : u < 0x7C00) (m : Nat) : u < encMag m ↔ Exceeds (scaled 23 m) u := by
  have hM : m % 2 ^ 23 < 2 ^ 23 := Nat.mod_lt _ (by decide)
  have hsplit : m / 2 ^ 23 * 2 ^ 23 + m % 2 ^ 23 = m := Nat.div_add_mod' m (2 ^ 23)
  unfold encMag
  split_ifs with hover hnormal hsub
  · have hmono : scaled 23 (143 * 2 ^ 23) ≤ scaled 23 m := (scaled_strictMono 23).monotone (by omega)
    exact iff_of_true hu (exceeds_of_lt (b := 0x7C00) (le_trans (by decide) hmono) hu)
  · have h := lt_normal_iff_exceeds (e := m / 2 ^ 23 - 112) (by omega) hM u
    rwa [Nat.sub_add_cancel (by omega), hsplit] at h
  · have h := lt_subnormal_iff_exceeds (E := m / 2 ^ 23) (by omega) (by omega) hM u
    rwa [hsplit] at h
  · have hmono : scaled 23 m < scaled 23 (102 * 2 ^ 23) := scaled_strictMono 23 (by omega)
    have hmid : midpoint 0 ≤ midpoint u :=
      Nat.add_le_add (scaled16_strictMono.monotone (by omega)) (scaled16_strictMono.monotone (by omega))
    have hlit : 2 * scaled 23 (102 * 2 ^ 23) = midpoint 0 := by decide
    unfold Exceeds
    omega

/-- A larger magnitude never gives a smaller one (40_encode R114). -/
theorem encMag_monotone : Monotone encMag := by
  intro m n hmn
  by_contra hlt
  have hmono : scaled 23 m ≤ scaled 23 n := (scaled_strictMono 23).monotone hmn
  have htop : encMag n < 0x7C00 := by have := encMag_le m; omega
  have hm := (lt_encMag_iff htop m).mp (by omega)
  have hn := mt (lt_encMag_iff htop n).mpr (lt_irrefl _)
  unfold Exceeds at hm hn
  omega

/-- A number that binary16 has encodes to its magnitude. -/
theorem encMag_of_scaled_eq {m t : Nat} (ht : t < 0x7C00) (h : scaled 23 m = scaled16 t) : encMag m = t := by
  apply le_antisymm
  · rw [← not_lt, lt_encMag_iff ht, h]
    exact not_exceeds_of_le le_rfl le_rfl
  · by_contra hlt
    have hm := encMag_le m
    exact lt_irrefl _ ((lt_encMag_iff (by omega) m).mpr (exceeds_of_lt h.ge (by omega)))

/-- ENCODE's magnitude lies on the input's side of the midpoint with every other finite magnitude, and on the midpoint it
is even. -/
theorem encMag_side_of_midpoint {m t : Nat} (hm : encMag m < 0x7C00) :
    (t < encMag m → scaled16 (encMag m) + scaled16 t ≤ 2 * scaled 23 m ∧
      (scaled16 (encMag m) + scaled16 t = 2 * scaled 23 m → encMag m % 2 = 0)) ∧
    (encMag m < t → 2 * scaled 23 m ≤ scaled16 (encMag m) + scaled16 t ∧
      (scaled16 (encMag m) + scaled16 t = 2 * scaled 23 m → encMag m % 2 = 0)) := by
  constructor <;> intro ht
  · have hexceeds := (lt_encMag_iff (u := encMag m - 1) (by omega) m).mp (by omega)
    have hmono : scaled16 t ≤ scaled16 (encMag m - 1) := scaled16_strictMono.monotone (by omega)
    rw [Exceeds, midpoint, Nat.sub_add_cancel (by omega)] at hexceeds
    omega
  · have hexceeds := mt (lt_encMag_iff hm m).mpr (lt_irrefl _)
    have hmono : scaled16 (encMag m + 1) ≤ scaled16 t := scaled16_strictMono.monotone ht
    rw [Exceeds, midpoint] at hexceeds
    omega

/-- A number is no farther from `v` than another one is, where `v` lies on its side of their midpoint. -/
theorem abs_sub_le_abs_sub {a b v : ℚ} (hbelow : b < a → a + b ≤ 2 * v) (habove : a < b → 2 * v ≤ a + b) :
    |a - v| ≤ |b - v| := by
  obtain hlt | rfl | hlt := lt_trichotomy b a
  · have hmid := hbelow hlt
    rw [abs_of_neg (by linarith : b - v < 0), abs_le]
    constructor <;> linarith
  · exact le_rfl
  · have hmid := habove hlt
    rw [abs_of_pos (by linarith : 0 < b - v), abs_le]
    constructor <;> linarith

/-- Of the finite magnitudes, ENCODE's has the number nearest to the input's, and it is even where another one's is as
near (00_scope R17). -/
theorem encMag_nearest {m t : Nat} (hm : encMag m < 0x7C00) :
    |(scaled16 (encMag m) : ℚ) - scaled 23 m| ≤ |(scaled16 t : ℚ) - scaled 23 m| ∧
    (|(scaled16 (encMag m) : ℚ) - scaled 23 m| = |(scaled16 t : ℚ) - scaled 23 m| → t ≠ encMag m →
      encMag m % 2 = 0) := by
  obtain ⟨hbelow, habove⟩ := encMag_side_of_midpoint (t := t) hm
  refine ⟨abs_sub_le_abs_sub ?_ ?_, fun heq hne => ?_⟩
  · exact fun hlt => by exact_mod_cast (hbelow (scaled16_strictMono.lt_iff_lt.mp (by exact_mod_cast hlt))).1
  · exact fun hlt => by exact_mod_cast (habove (scaled16_strictMono.lt_iff_lt.mp (by exact_mod_cast hlt))).1
  · have hmid : scaled16 (encMag m) + scaled16 t = 2 * scaled 23 m := by
      obtain h | h := abs_eq_abs.mp heq
      · have hsame : scaled16 (encMag m) = scaled16 t := by exact_mod_cast sub_left_injective h
        exact absurd (scaled16_strictMono.injective hsame).symm hne
      · have hsum : (scaled16 (encMag m) : ℚ) + scaled16 t = 2 * scaled 23 m := by linarith
        exact_mod_cast hsum
    obtain hlt | hlt := Nat.lt_or_gt_of_ne hne
    · exact (hbelow hlt).2 hmid
    · exact (habove hlt).2 hmid

/-- Nor is the number of a magnitude under the other sign nearer; where one is as near, both are 0 or ENCODE's magnitude is
even all the same. -/
theorem encMag_nearest_neg {m t : Nat} (hm : encMag m < 0x7C00) :
    |(scaled16 (encMag m) : ℚ) - scaled 23 m| ≤ |-(scaled16 t : ℚ) - scaled 23 m| ∧
    (|(scaled16 (encMag m) : ℚ) - scaled 23 m| = |-(scaled16 t : ℚ) - scaled 23 m| → encMag m % 2 = 0) := by
  obtain ⟨hle, heven⟩ := encMag_nearest (t := 0) hm
  have hzero : (scaled16 0 : ℚ) = 0 := by simp [scaled16, scaled]
  have ht : (0 : ℚ) ≤ scaled16 t := Nat.cast_nonneg _
  have hv : (0 : ℚ) ≤ scaled 23 m := Nat.cast_nonneg _
  have hfar : |-(scaled16 t : ℚ) - scaled 23 m| = scaled16 t + scaled 23 m := by
    rw [abs_of_nonpos (by linarith)]; ring
  have hnear : |(scaled16 0 : ℚ) - scaled 23 m| = scaled 23 m := by
    rw [hzero, zero_sub, abs_neg, abs_of_nonneg hv]
  rw [hnear] at hle heven
  rw [hfar]
  refine ⟨by linarith, fun heq => ?_⟩
  by_cases hd : encMag m = 0
  · omega
  · exact heven (by linarith) (Ne.symm hd)

end Sys2Proof.Machine
end

section
/-! PROOFS. The two formats as a sign over a magnitude: what ENCODE and the values of patterns are in these terms
(00_scope R18, 30_encoding R60, R61, 40_encode R100). -/

namespace Sys2Proof.Machine

/-! ### The fields of what is packed -/

@[simp] theorem sign16_pack16 (s : BitVec 1) (e : BitVec 5) (m : BitVec 10) : sign16 (pack16 s e m) = s :=
  (BitVec.extractLsb'_append_eq_of_le (by decide)).trans BitVec.extractLsb'_append_eq_left

@[simp] theorem exp16_pack16 (s : BitVec 1) (e : BitVec 5) (m : BitVec 10) : exp16 (pack16 s e m) = e :=
  (BitVec.extractLsb'_append_eq_of_le (by decide)).trans BitVec.extractLsb'_append_eq_right

@[simp] theorem man16_pack16 (s : BitVec 1) (e : BitVec 5) (m : BitVec 10) : man16 (pack16 s e m) = m :=
  BitVec.extractLsb'_append_eq_right

@[simp] theorem sign32_pack32 (s : BitVec 1) (e : BitVec 8) (m : BitVec 23) : sign32 (pack32 s e m) = s :=
  (BitVec.extractLsb'_append_eq_of_le (by decide)).trans BitVec.extractLsb'_append_eq_left

@[simp] theorem exp32_pack32 (s : BitVec 1) (e : BitVec 8) (m : BitVec 23) : exp32 (pack32 s e m) = e :=
  (BitVec.extractLsb'_append_eq_of_le (by decide)).trans BitVec.extractLsb'_append_eq_right

@[simp] theorem man32_pack32 (s : BitVec 1) (e : BitVec 8) (m : BitVec 23) : man32 (pack32 s e m) = m :=
  BitVec.extractLsb'_append_eq_right

/-- The fields of a binary16 pattern make it up (30_encoding R61). -/
theorem pack16_fields (h : Half) : pack16 (sign16 h) (exp16 h) (man16 h) = h :=
  have ⟨_, _, _, hpack⟩ := fieldsLieWhereTheFormatsSay
  hpack h

/-- A mantissa bit is the pattern's own bit. -/
theorem getLsbD_man16 {i : Nat} (hi : i < 10) (h : Half) : (man16 h).getLsbD i = h.getLsbD i := by
  simp [man16, hi]

/-! ### Magnitudes -/

/-- `f[30:0]`. -/
def mag32 (f : Single) : Nat := f.toNat % 2 ^ 31

/-- `h[14:0]`. -/
def mag16 (h : Half) : Nat := h.toNat % 2 ^ 15

theorem exp32_toNat (f : Single) : (exp32 f).toNat = mag32 f / 2 ^ 23 := by
  have hM := (man32 f).isLt
  rw [mag32, magnitude32_eq]
  omega

theorem man32_toNat (f : Single) : (man32 f).toNat = mag32 f % 2 ^ 23 := by
  have hM := (man32 f).isLt
  rw [mag32, magnitude32_eq]
  omega

theorem exp16_toNat (h : Half) : (exp16 h).toNat = mag16 h / 2 ^ 10 := by
  have hM := (man16 h).isLt
  rw [mag16, magnitude16_eq]
  omega

theorem man16_toNat (h : Half) : (man16 h).toNat = mag16 h % 2 ^ 10 := by
  have hM := (man16 h).isLt
  rw [mag16, magnitude16_eq]
  omega

theorem mag32_lt (f : Single) : mag32 f < 2 ^ 31 := Nat.mod_lt _ (by decide)
theorem mag16_lt (h : Half) : mag16 h < 2 ^ 15 := Nat.mod_lt _ (by decide)

theorem toNat_eq_sign32_add_mag32 (f : Single) : f.toNat = (sign32 f).toNat * 2 ^ 31 + mag32 f := by
  have hf := f.isLt
  simp only [sign32, mag32, BitVec.extractLsb'_toNat, Nat.shiftRight_eq_div_pow]
  omega

theorem toNat_eq_sign16_add_mag16 (h : Half) : h.toNat = (sign16 h).toNat * 2 ^ 15 + mag16 h := by
  have hh := h.isLt
  simp only [sign16, mag16, BitVec.extractLsb'_toNat, Nat.shiftRight_eq_div_pow]
  omega

/-- A binary16 pattern is its sign and its magnitude. -/
theorem half_ext {h h' : Half} (hs : sign16 h = sign16 h') (hm : mag16 h = mag16 h') : h = h' := by
  rw [← BitVec.toNat_inj, toNat_eq_sign16_add_mag16, hs, hm, ← toNat_eq_sign16_add_mag16]

theorem half_eq_iff (h h' : Half) : h = h' ↔ sign16 h = sign16 h' ∧ mag16 h = mag16 h' :=
  ⟨fun heq => heq ▸ ⟨rfl, rfl⟩, fun ⟨hs, hm⟩ => half_ext hs hm⟩

theorem isNan32_iff (f : Single) : isNan32 f = true ↔ exp32 f = 255 ∧ man32 f ≠ 0 := by
  rw [isNan32, Bool.and_eq_true, beq_iff_eq, bne_iff_ne]

theorem isNan_iff (h : Half) : isNan h = true ↔ exp16 h = 31 ∧ man16 h ≠ 0 := by
  rw [isNan, Bool.and_eq_true, beq_iff_eq, bne_iff_ne]

theorem exp32_eq_255_iff (f : Single) : exp32 f = 255 ↔ mag32 f / 2 ^ 23 = 255 := by
  rw [← exp32_toNat, ← BitVec.toNat_inj]; rfl

theorem man32_eq_zero_iff (f : Single) : man32 f = 0 ↔ mag32 f % 2 ^ 23 = 0 := by
  rw [← man32_toNat, ← BitVec.toNat_inj]; rfl

theorem exp32_eq_zero_iff (f : Single) : exp32 f = 0 ↔ mag32 f / 2 ^ 23 = 0 := by
  rw [← exp32_toNat, ← BitVec.toNat_inj]; rfl

theorem exp16_eq_zero_iff (h : Half) : exp16 h = 0 ↔ mag16 h / 2 ^ 10 = 0 := by
  rw [← exp16_toNat, ← BitVec.toNat_inj]; rfl

theorem exp16_eq_31_iff (h : Half) : exp16 h = 31 ↔ mag16 h / 2 ^ 10 = 31 := by
  rw [← exp16_toNat, ← BitVec.toNat_inj]; rfl

theorem man16_eq_zero_iff (h : Half) : man16 h = 0 ↔ mag16 h % 2 ^ 10 = 0 := by
  rw [← man16_toNat, ← BitVec.toNat_inj]; rfl

theorem isNan32_eq_true_iff (f : Single) : isNan32 f = true ↔ 0x7F800000 < mag32 f := by
  have hlt := mag32_lt f
  rw [isNan32_iff, exp32_eq_255_iff, ne_eq, man32_eq_zero_iff]
  omega

theorem isNan_eq_true_iff (h : Half) : isNan h = true ↔ 0x7C00 < mag16 h := by
  have hlt := mag16_lt h
  rw [isNan_iff, exp16_eq_31_iff, ne_eq, man16_eq_zero_iff]
  omega

theorem isNan32_eq_false_iff (f : Single) : isNan32 f = false ↔ mag32 f ≤ 0x7F800000 := by
  rw [← Bool.not_eq_true, isNan32_eq_true_iff, not_lt]

theorem isNan_eq_false_iff (h : Half) : isNan h = false ↔ mag16 h ≤ 0x7C00 := by
  rw [← Bool.not_eq_true, isNan_eq_true_iff, not_lt]

/-! ### ENCODE as a sign and a magnitude -/

@[simp] theorem sign16_signed15 (s : BitVec 1) (t : Nat) : sign16 (signed15 s t) = s :=
  BitVec.extractLsb'_append_eq_left

theorem mag16_signed15 {t : Nat} (ht : t < 2 ^ 15) (s : BitVec 1) : mag16 (signed15 s t) = t := by
  rw [mag16, signed15, BitVec.toNat_append, BitVec.toNat_ofNat, Nat.shiftLeft_eq, Nat.or_mod_two_pow]
  simpa using ht

theorem inf16_eq (s : BitVec 1) : inf16 s = signed15 s 0x7C00 :=
  half_ext (by simp [inf16]) (by
    rw [mag16_signed15 (by decide), mag16, magnitude16_eq, inf16, exp16_pack16, man16_pack16]
    rfl)

/-- A NaN goes through the parameter (40_encode R103). -/
theorem encodeF32_of_nan {f : Single} (hf : isNan32 f = true) (map : EncNanFun) :
    encodeF32 map f = map (sign32 f) (man32 f) := by
  have hlt := mag32_lt f
  rw [isNan32_eq_true_iff] at hf
  simp only [encodeF32, exp32_toNat, man32_toNat]
  rw [if_neg (by omega), if_pos (by omega)]

/-- Every other input gives its sign and the magnitude that its magnitude encodes to (40_encode R102, R105 to R111). -/
theorem encodeF32_of_not_nan {f : Single} (hf : isNan32 f = false) (map : EncNanFun) :
    encodeF32 map f = signed15 (sign32 f) (encMag (mag32 f)) := by
  rw [isNan32_eq_false_iff] at hf
  simp only [encodeF32, encMag, exp32_toNat, man32_toNat, inf16_eq]
  have hover (E : Nat) : (E : Int) - 112 ≥ 31 ↔ 143 ≤ E := by omega
  have hnormal (E : Nat) : (E : Int) - 112 ≥ 1 ↔ 113 ≤ E := by omega
  have hsub (E : Nat) : (E : Int) - 112 ≥ -10 ↔ 102 ≤ E := by omega
  have hcast (E : Nat) : ((E : Int) - 112).toNat = E - 112 ∧ (14 - ((E : Int) - 112)).toNat = 126 - E := by omega
  simp only [hover, hnormal, hsub, hcast, apply_ite (signed15 (sign32 f))]
  by_cases hE : mag32 f / 2 ^ 23 = 255
  · rw [if_pos ⟨hE, by omega⟩, if_pos (by omega)]
  · rw [if_neg fun h => hE h.1, if_neg hE]

theorem sign16_encodeF32 {f : Single} (hf : isNan32 f = false) (map : EncNanFun) :
    sign16 (encodeF32 map f) = sign32 f := by
  rw [encodeF32_of_not_nan hf, sign16_signed15]

theorem mag16_encodeF32 {f : Single} (hf : isNan32 f = false) (map : EncNanFun) :
    mag16 (encodeF32 map f) = encMag (mag32 f) := by
  rw [encodeF32_of_not_nan hf, mag16_signed15 (Nat.lt_of_le_of_lt (encMag_le _) (by decide))]

/-! ### Values as signs and magnitudes -/

/-- The scale of a normal pattern, over that of the first binade. -/
theorem two_zpow_sub_bias {E : Nat} (hE : E ≠ 0) (bias : ℤ) :
    (2 : ℚ) ^ (E - bias : ℤ) = 2 ^ (E - 1) * 2 ^ (1 - bias) := by
  rw [← zpow_natCast, ← zpow_add₀ two_ne_zero]
  congr 1
  omega

/-- A binary32 number in its own units, 2^-149 each (00_scope R18). -/
theorem num32_eq (f : Single) : num32 f = signFactor (sign32 f) * (scaled 23 (mag32 f) * 2 ^ (-149 : ℤ)) := by
  simp only [num32, exp32_eq_zero_iff, exp32_toNat, man32_toNat, scaled]
  split_ifs with hE
  · ring
  · rw [two_zpow_sub_bias hE]
    push_cast
    ring

/-- A binary16 number in binary32's units (00_scope R18). -/
theorem num16_eq (h : Half) : num16 h = signFactor (sign16 h) * (scaled16 (mag16 h) * 2 ^ (-149 : ℤ)) := by
  simp only [num16, exp16_eq_zero_iff, exp16_toNat, man16_toNat, scaled16, scaled]
  split_ifs with hE
  · push_cast
    ring
  · rw [two_zpow_sub_bias hE]
    push_cast
    ring

/-- `val32` by magnitude (00_scope R18): the numbers lie below the infinity and the NaNs above. -/
theorem val32_eq (f : Single) :
    val32 f = if mag32 f < 0x7F800000 then .num (num32 f)
      else if mag32 f = 0x7F800000 then .inf (sign32 f == 1) else .nan := by
  have hlt := mag32_lt f
  simp only [val32, exp32_eq_255_iff, man32_eq_zero_iff]
  by_cases hfin : mag32 f < 0x7F800000
  · rw [if_pos hfin, if_neg (by omega)]
  · rw [if_neg hfin, if_pos (by omega)]
    exact if_congr (by omega) rfl rfl

/-- `val16` by magnitude (00_scope R18). -/
theorem val16_eq (h : Half) :
    val16 h = if mag16 h < 0x7C00 then .num (num16 h)
      else if mag16 h = 0x7C00 then .inf (sign16 h == 1) else .nan := by
  have hlt := mag16_lt h
  simp only [val16, exp16_eq_31_iff, man16_eq_zero_iff]
  by_cases hfin : mag16 h < 0x7C00
  · rw [if_pos hfin, if_neg (by omega)]
  · rw [if_neg hfin, if_pos (by omega)]
    exact if_congr (by omega) rfl rfl

/-- The number `val32` gives is the finite input's number. -/
theorem val32_eq_num {f : Single} {v : ℚ} (h : val32 f = .num v) : mag32 f < 0x7F800000 ∧ v = num32 f := by
  rw [val32_eq] at h
  split_ifs at h with hfin
  exact ⟨hfin, (Value.num.inj h).symm⟩

/-- The infinity `val32` gives has the input's sign. -/
theorem val32_eq_inf {f : Single} {b : Bool} (h : val32 f = .inf b) : mag32 f = 0x7F800000 ∧ b = (sign32 f == 1) := by
  rw [val32_eq] at h
  split_ifs at h with hfin hinf
  exact ⟨hinf, (Value.inf.inj h).symm⟩

theorem signFactor_mul (s s' : BitVec 1) : signFactor s * signFactor s' = if s = s' then 1 else -1 := by
  obtain rfl | rfl := BitVec.eq_zero_or_eq_one s <;> obtain rfl | rfl := BitVec.eq_zero_or_eq_one s' <;>
    simp [signFactor]

theorem abs_signFactor (s : BitVec 1) : |signFactor s| = 1 := by
  obtain rfl | rfl := BitVec.eq_zero_or_eq_one s <;> simp [signFactor]

/-- How far a binary16 number lies from a binary32 number, the former taken under the latter's sign. -/
theorem abs_num16_sub_num32 (h : Half) (f : Single) :
    |num16 h - num32 f| =
      |signFactor (sign32 f) * signFactor (sign16 h) * scaled16 (mag16 h) - scaled 23 (mag32 f)| * 2 ^ (-149 : ℤ) := by
  have hsq : signFactor (sign32 f) * signFactor (sign32 f) = 1 := by rw [signFactor_mul, if_pos rfl]
  have hunit : |(2 : ℚ) ^ (-149 : ℤ)| = 2 ^ (-149 : ℤ) := abs_of_pos (by positivity)
  calc |num16 h - num32 f|
      = |signFactor (sign32 f) * ((signFactor (sign32 f) * signFactor (sign16 h) * scaled16 (mag16 h)
          - scaled 23 (mag32 f)) * 2 ^ (-149 : ℤ))| := by
        rw [num16_eq, num32_eq]
        congr 1
        linear_combination (-(signFactor (sign16 h) * scaled16 (mag16 h) * 2 ^ (-149 : ℤ))) * hsq
    _ = _ := by rw [abs_mul, abs_mul, abs_signFactor, one_mul, hunit]

theorem mag16_lt_inf_iff (h : Half) : mag16 h < 0x7C00 ↔ exp16 h ≠ 31 := by
  have hlt := mag16_lt h
  rw [ne_eq, exp16_eq_31_iff]
  omega

theorem man16_bit0_eq_false_iff (h : Half) : (man16 h).getLsbD 0 = false ↔ mag16 h % 2 = 0 := by
  rw [BitVec.getLsbD, man16_toNat, Nat.testBit_zero, decide_eq_false_iff_not]
  omega

/-- Below the overflow threshold ENCODE gives the nearest pattern (40_encode R112). -/
theorem isNearest16_encodeF32 {f : Single} (hf : isNan32 f = false) (hfin : encMag (mag32 f) < 0x7C00)
    (map : EncNanFun) : IsNearest16 (num32 f) (encodeF32 map f) := by
  have hs := sign16_encodeF32 hf map
  have hm := mag16_encodeF32 hf map
  have hunit : (0 : ℚ) < 2 ^ (-149 : ℤ) := by positivity
  refine ⟨(mag16_lt_inf_iff _).mp (hm ▸ hfin), fun h' _ => ?_⟩
  rw [abs_num16_sub_num32, abs_num16_sub_num32, hs, hm, signFactor_mul, signFactor_mul, if_pos rfl, one_mul,
    mul_le_mul_iff_left₀ hunit, mul_left_inj' hunit.ne', man16_bit0_eq_false_iff, hm]
  by_cases hsign : sign32 f = sign16 h'
  · obtain ⟨hle, heven⟩ := encMag_nearest (t := mag16 h') hfin
    rw [if_pos hsign, one_mul]
    refine ⟨hle, fun heq hne => heven heq fun hmag => hne ?_⟩
    rw [half_ext (hs.trans hsign) (hm.trans hmag.symm)]
  · obtain ⟨hle, heven⟩ := encMag_nearest_neg (t := mag16 h') hfin
    rw [if_neg hsign, neg_one_mul]
    exact ⟨hle, fun heq _ => heven heq⟩

/-! ### Ranges of magnitudes -/

/-- By monotonicity the magnitudes that encode to `t` are those from `lo` to `hi`, where both ends do and their outer
neighbours do not. -/
theorem encMag_eq_iff {lo hi t : Nat} (hlo : encMag lo = t) (hbelow : encMag (lo - 1) < t) (hhi : encMag hi = t)
    (habove : t < encMag (hi + 1)) (m : Nat) : encMag m = t ↔ lo ≤ m ∧ m ≤ hi := by
  constructor
  · rintro rfl
    have h1 := encMag_monotone.reflect_lt hbelow
    have h2 := encMag_monotone.reflect_lt habove
    omega
  · rintro ⟨h1, h2⟩
    exact le_antisymm (hhi ▸ encMag_monotone h2) (hlo ▸ encMag_monotone h1)

/-- Magnitudes go to infinity exactly from that of 65520 up (40_encode R108). -/
theorem encMag_eq_inf_iff (m : Nat) : encMag m = 0x7C00 ↔ 0x477FF000 ≤ m := by
  have hbelow : encMag 0x477FEFFF = 0x7BFF := by decide
  have hfirst : encMag 0x477FF000 = 0x7C00 := by decide
  constructor
  · intro h
    have hlt := encMag_monotone.reflect_lt (a := 0x477FEFFF) (b := m) (by omega)
    omega
  · intro h
    exact le_antisymm (encMag_le m) (hfirst ▸ encMag_monotone h)

/-- Absolute values are compared as the patterns' magnitudes are. -/
theorem scaled_mul_unit_le_iff (m n : Nat) :
    (scaled 23 m : ℚ) * 2 ^ (-149 : ℤ) ≤ scaled 23 n * 2 ^ (-149 : ℤ) ↔ m ≤ n := by
  rw [mul_le_mul_iff_left₀ (by positivity), Nat.cast_le, (scaled_strictMono 23).le_iff_le]

theorem abs_num32 (f : Single) : |num32 f| = scaled 23 (mag32 f) * 2 ^ (-149 : ℤ) := by
  rw [num32_eq, abs_mul, abs_signFactor, one_mul, abs_of_nonneg (by positivity)]

/-- The threshold 65520 as a magnitude (40_encode R108). -/
theorem le_abs_num32_iff_overflow (f : Single) : 65520 ≤ |num32 f| ↔ 0x477FF000 ≤ mag32 f := by
  have hlit : (65520 : ℚ) = scaled 23 0x477FF000 * 2 ^ (-149 : ℤ) := by
    rw [show scaled 23 0x477FF000 = 65520 * 2 ^ 149 by decide]
    norm_num
  rw [abs_num32, hlit, scaled_mul_unit_le_iff]

/-! ### Signs of numbers -/

theorem num32_nonneg {f : Single} (hs : sign32 f = 0) : 0 ≤ num32 f := by
  rw [num32_eq, hs, signFactor, if_neg (by decide), one_mul]
  positivity

theorem num32_nonpos {f : Single} (hs : sign32 f = 1) : num32 f ≤ 0 := by
  rw [num32_eq, hs, signFactor, if_pos rfl, neg_one_mul, neg_nonpos]
  positivity

theorem num32_neg_iff {f : Single} (hf : num32 f ≠ 0) : num32 f < 0 ↔ sign32 f = 1 := by
  obtain hs | hs := BitVec.eq_zero_or_eq_one (sign32 f)
  · exact iff_of_false (num32_nonneg hs).not_gt (by rw [hs]; decide)
  · exact iff_of_true (lt_of_le_of_ne (num32_nonpos hs) hf) hs

theorem signFactor_ne_zero (s : BitVec 1) : signFactor s ≠ 0 := by
  rw [← abs_pos, abs_signFactor]
  exact one_pos

/-- Patterns of one sign have the same value where their magnitudes are the same number. -/
theorem num32_eq_num16_iff {f : Single} {h : Half} (hs : sign32 f = sign16 h) :
    num32 f = num16 h ↔ scaled 23 (mag32 f) = scaled16 (mag16 h) := by
  rw [num32_eq, num16_eq, hs, mul_right_inj' (signFactor_ne_zero _), mul_left_inj' (by positivity), Nat.cast_inj]

end Sys2Proof.Machine
end

section
/-! PROOFS. DECODE as a sign and a magnitude of the same number (41_decode R141 to R144, R148). -/

namespace Sys2Proof.Machine

theorem mag32_pack32 (s : BitVec 1) (e : BitVec 8) (m : BitVec 23) :
    mag32 (pack32 s e m) = e.toNat * 2 ^ 23 + m.toNat := by
  rw [mag32, magnitude32_eq, exp32_pack32, man32_pack32]

/-- The magnitude DECODE gives for the magnitude `t` of a binary16 pattern but a NaN (41_decode R141 to R144). -/
def decMag (t : Nat) : Nat :=
  if t = 0 then 0
  else if t < 2 ^ 10 then (t.log2 + 103) * 2 ^ 23 + t * 2 ^ (23 - t.log2) % 2 ^ 23
  else if t = 0x7C00 then 0x7F800000
  else (t / 2 ^ 10 + 112) * 2 ^ 23 + t % 2 ^ 10 * 2 ^ 13

/-- Every pattern but a NaN gives its sign and the magnitude that its magnitude decodes to. -/
theorem decodeF16_of_not_nan {h : Half} (hh : isNan h = false) (map : DecNanFun) :
    sign32 (decodeF16 map h) = sign16 h ∧ mag32 (decodeF16 map h) = decMag (mag16 h) := by
  rw [isNan_eq_false_iff] at hh
  have hE := exp16_toNat h
  have hM := man16_toNat h
  simp only [decodeF16, msbIndex, decMag, hE, hM]
  by_cases hzero : mag16 h = 0
  · rw [if_pos (by omega), if_pos hzero]
    simp [mag32_pack32]
  rw [if_neg (by omega), if_neg hzero]
  by_cases hsub : mag16 h < 2 ^ 10
  · have hlog : (mag16 h).log2 < 10 := (Nat.log2_lt hzero).mpr hsub
    rw [if_pos (by omega), if_pos hsub, Nat.mod_eq_of_lt hsub, mag32_pack32, BitVec.toNat_ofNat, BitVec.toNat_ofNat,
      Nat.mod_mod, Nat.mod_eq_of_lt (by omega : _ < 2 ^ 8)]
    exact ⟨sign32_pack32 _ _ _, rfl⟩
  rw [if_neg (by omega), if_neg hsub]
  by_cases hinf : mag16 h = 0x7C00
  · rw [if_pos (by omega), if_pos hinf, mag32_pack32]
    exact ⟨sign32_pack32 _ _ _, rfl⟩
  · rw [if_neg (by omega), if_neg (by omega), if_neg hinf, mag32_pack32, BitVec.toNat_append, BitVec.toNat_ofNat,
      Nat.mod_eq_of_lt (by omega : _ < 2 ^ 8), hM]
    exact ⟨sign32_pack32 _ _ _, by simp [Nat.shiftLeft_eq]⟩

/-- DECODE's magnitude is the same number (41_decode R148). -/
theorem scaled_decMag {t : Nat} (ht : t < 0x7C00) : decMag t < 0x7F800000 ∧ scaled 23 (decMag t) = scaled16 t := by
  unfold decMag
  by_cases hzero : t = 0
  · subst hzero
    decide
  rw [if_neg hzero]
  by_cases hsub : t < 2 ^ 10
  · have hlog : t.log2 < 10 := (Nat.log2_lt hzero).mpr hsub
    have hlow : 2 ^ 23 ≤ t * 2 ^ (23 - t.log2) := by
      calc 2 ^ 23 = 2 ^ t.log2 * 2 ^ (23 - t.log2) := by rw [← pow_add]; congr 1; omega
        _ ≤ t * 2 ^ (23 - t.log2) := Nat.mul_le_mul_right _ (Nat.log2_self_le hzero)
    have hhigh : t * 2 ^ (23 - t.log2) < 2 ^ 24 := by
      calc t * 2 ^ (23 - t.log2) < 2 ^ (t.log2 + 1) * 2 ^ (23 - t.log2) :=
            Nat.mul_lt_mul_of_pos_right Nat.lt_log2_self (by positivity)
        _ = 2 ^ 24 := by rw [← pow_add]; congr 1; omega
    have hmod : t * 2 ^ (23 - t.log2) % 2 ^ 23 < 2 ^ 23 := Nat.mod_lt _ (by decide)
    have hone : 2 ^ 23 + t * 2 ^ (23 - t.log2) % 2 ^ 23 = t * 2 ^ (23 - t.log2) := by omega
    rw [if_pos hsub]
    refine ⟨by omega, ?_⟩
    rw [scaled_of_normal (by omega) hmod, hone, scaled16, scaled_of_subnormal hsub, mul_assoc, ← pow_add]
    congr 2
    omega
  · rw [if_neg hsub, if_neg (by omega)]
    refine ⟨by omega, ?_⟩
    rw [scaled_of_normal (by omega) (by omega), scaled16]
    conv_rhs => rw [← Nat.div_add_mod' t (2 ^ 10), scaled_of_normal (by omega) (by omega)]
    rw [show t / 2 ^ 10 + 112 - 1 = 112 + (t / 2 ^ 10 - 1) by omega, pow_add]
    ring

end Sys2Proof.Machine
end

section
/-! PROOFS. The statements about ENCODE (40_encode), from its sign and magnitude. -/

namespace Sys2Proof.Machine

/-! ### The regimes -/

/-- What an evaluation of an input but a NaN files (40_encode R100). -/
theorem exec_encode_of_not_nan {f : Single} (hf : isNan32 f = false) (s : State) :
    exec (.encode f) s = .next ((s.driveEnc f).file (.half (signed15 (sign32 f) (encMag (mag32 f))))) := by
  rw [← encodeF32_of_not_nan hf (encNanOf s.params.enc)]
  exact exec_eq (.encode f) s

/-- What an evaluation of a NaN files (40_encode R103). -/
theorem exec_encode_of_nan {f : Single} (hf : isNan32 f = true) (s : State) :
    exec (.encode f) s = .next ((s.driveEnc f).file (.half (encNanOf s.params.enc (sign32 f) (man32 f)))) := by
  rw [← encodeF32_of_nan hf (encNanOf s.params.enc)]
  exact exec_eq (.encode f) s

theorem isNan32_eq_false_of_exp32 {f : Single} (hE : (exp32 f).toNat ≤ 254) : isNan32 f = false := by
  rw [exp32_toNat] at hE
  rw [isNan32_eq_false_iff]
  omega

theorem encMag_of_overflow {f : Single} (hE : 143 ≤ (exp32 f).toNat) : encMag (mag32 f) = 0x7C00 := by
  rw [exp32_toNat] at hE
  rw [encMag, if_pos hE]

theorem encMag_of_normal {f : Single} (hE : 113 ≤ (exp32 f).toNat) (hE' : (exp32 f).toNat ≤ 142) :
    encMag (mag32 f) = ((exp32 f).toNat - 112) * 2 ^ 10 + rneShift (man32 f).toNat 13 := by
  rw [exp32_toNat] at *
  rw [encMag, if_neg (by omega), if_pos hE, man32_toNat]

theorem encMag_of_subnormal {f : Single} (hE : 102 ≤ (exp32 f).toNat) (hE' : (exp32 f).toNat ≤ 112) :
    encMag (mag32 f) = rneShift (2 ^ 23 + (man32 f).toNat) (126 - (exp32 f).toNat) := by
  rw [exp32_toNat] at *
  rw [encMag, if_neg (by omega), if_neg (by omega), if_pos hE, man32_toNat]

theorem encMag_of_underflow {f : Single} (hE : (exp32 f).toNat ≤ 101) : encMag (mag32 f) = 0 := by
  rw [exp32_toNat] at hE
  rw [encMag, if_neg (by omega), if_neg (by omega), if_neg (by omega)]

theorem signed15_inf (s : BitVec 1) : signed15 s 0x7C00 = s ++ 0b11111#5 ++ 0b0000000000#10 := (inf16_eq s).symm

/-- Settles O10: the magnitude of an infinity is past the overflow threshold. -/
theorem encodeOfInfinity : Obligations.EncodeOfInfinity := by
  have hinf (f : Single) (s : State) (hE : exp32 f = 255) (hM : man32 f = 0) :
      exec (.encode f) s = .next ((s.driveEnc f).file (.half (sign32 f ++ 0b11111#5 ++ 0b0000000000#10))) := by
    have hf : isNan32 f = false := by simp [isNan32, hM]
    rw [exec_encode_of_not_nan hf, encMag_of_overflow (by rw [hE]; decide), signed15_inf]
  exact ⟨hinf, fun s => hinf 0x7F800000 s (by decide) (by decide), fun s => hinf 0xFF800000 s (by decide) (by decide)⟩

/-- Settles O13: past the overflow threshold the magnitude is that of infinity. -/
theorem encodeOverflow : Obligations.EncodeOverflow := by
  intro f s hE hE'
  rw [exec_encode_of_not_nan (isNan32_eq_false_of_exp32 hE'), encMag_of_overflow hE, signed15_inf]

/-- Settles O11: a NaN goes through the state's map, and the default's top ten payload bits are `f[22:13]`. -/
theorem encodeOfNan : Obligations.EncodeOfNan := by
  intro f s hE hM
  have hexec := exec_encode_of_nan (f := f) ((isNan32_iff f).mpr ⟨hE, hM⟩) s
  refine ⟨hexec, fun hdefault => ?_⟩
  have hpayload : (man32 f).extractLsb' 13 10 = f.extractLsb' 13 10 := by
    simp [man32]
  rw [hexec, hdefault, encNanOf, encNanDefault, hpayload]
  rfl

/-- Settles O14: the rounding rule, with the parity of the kept part read as `M[13]`. -/
theorem encodeNormal : Obligations.EncodeNormal := by
  intro f s hE hE'
  have hodd : (man32 f).toNat / 2 ^ 13 % 2 = 1 ↔ (man32 f).getLsbD 13 = true := by
    rw [BitVec.getLsbD, Nat.testBit_eq_decide_div_mod_eq, decide_eq_true_iff]
  rw [exec_encode_of_not_nan (isNan32_eq_false_of_exp32 (by omega)), encMag_of_normal hE hE', rneShift_eq_add,
    ← add_assoc]
  simp only [hodd]
  rfl

/-- Settles O15: `t` is ENCODE's magnitude, which `encMag_le` bounds; a carry adds 1 to the exponent over a mantissa of 0; the
threshold is `encMag_eq_inf_iff`. -/
theorem encodeNormalCarry : Obligations.EncodeNormalCarry := by
  refine ⟨fun map f hE hE' => ?_, fun map f hlo hhi => ?_, fun map => ?_⟩
  · have hf := isNan32_eq_false_of_exp32 (f := f) (by omega)
    have hmag := encMag_of_normal hE hE'
    refine ⟨hmag ▸ encMag_le _, fun hcarry => ?_⟩
    rw [← BitVec.toNat_inj, exp16_toNat, man16_toNat, mag16_encodeF32 hf, hmag, hcarry]
    exact ⟨by omega, by rw [Nat.add_mod, Nat.mul_mod_left]; rfl⟩
  · have hf : isNan32 f = false := (isNan32_eq_false_iff f).mpr (hhi.trans (by decide))
    have hmag : encMag (mag32 f) = 0x7C00 := (encMag_eq_inf_iff _).mpr hlo
    rw [encodeF32_of_not_nan hf, hmag, signed15_inf]
  · rw [encodeF32_of_not_nan (by decide)]
    decide

/-- Settles O16: the rounding rule; 24 bits drop at E = 102, where the significand is half a unit or more. -/
theorem encodeSubnormal : Obligations.EncodeSubnormal := by
  have hexec (f : Single) (s : State) (hE : 102 ≤ (exp32 f).toNat) (hE' : (exp32 f).toNat ≤ 112) :
      exec (.encode f) s = .next ((s.driveEnc f).file (.half (signed15 (sign32 f)
        (rneShift (2 ^ 23 + (man32 f).toNat) (126 - (exp32 f).toNat))))) := by
    rw [exec_encode_of_not_nan (isNan32_eq_false_of_exp32 (by omega)), encMag_of_subnormal hE hE']
  refine ⟨fun f s hE hE' => ?_, fun f s hE => ?_⟩
  · rw [hexec f s hE hE', rneShift_eq_add, Nat.sub_right_comm]
    rfl
  · rw [hexec f s (by omega) (by omega), hE]
    by_cases hM : man32 f = 0
    · rw [hM]
      rfl
    · have hM0 : (man32 f).toNat ≠ 0 := fun h => hM (BitVec.toNat_inj.mp h)
      have hM1 := (man32 f).isLt
      have hmag : rneShift (2 ^ 23 + (man32 f).toNat) 24 = 1 := by
        rw [rneShift_eq_ite]
        split_ifs <;> omega
      rw [if_neg hM, hmag]
      rfl

/-- Settles O17: by `lt_rneShift_iff` the sum is past 0x3FF from 2047 half units up, and past 0x400 or, where one bit more
drops, past 0x200 never. -/
theorem encodeSubnormalCarry : Obligations.EncodeSubnormalCarry := by
  have hnext (f : Single) : 0xFFE000 ≤ 2 ^ 23 + (man32 f).toNat ↔ 0x3FF < rneShift (2 ^ 23 + (man32 f).toNat) 14 := by
    rw [lt_rneShift_iff (by decide)]
    omega
  have hle (f : Single) : rneShift (2 ^ 23 + (man32 f).toNat) 14 ≤ 0x0400 :=
    rneShift_subnormal_le (E := 112) le_rfl (man32 f).isLt
  have hrange (f : Single) (hE : (exp32 f).toNat = 112) :
      0xFFE000 ≤ 2 ^ 23 + (man32 f).toNat ↔ 0x387FE000 ≤ f.toNat % 2 ^ 31 := by
    rw [magnitude32_eq, hE]
    omega
  refine ⟨fun f hE => ⟨hle f, ?_, hrange f hE⟩, fun f hE hE' => ?_, fun f s hE hf => ?_⟩
  · have := hle f
    rw [hnext]
    omega
  · have hM := (man32 f).isLt
    have hstep : 2 ^ 15 ≤ 2 ^ (126 - (exp32 f).toNat) := Nat.pow_le_pow_right (by decide) (by omega)
    rw [← not_lt, lt_rneShift_iff (by omega)]
    omega
  · have hmag : rneShift (2 ^ 23 + (man32 f).toNat) 14 = 0x0400 :=
      le_antisymm (hle f) ((hnext f).mp ((hrange f hE).mpr hf))
    rw [exec_encode_of_not_nan (isNan32_eq_false_of_exp32 (by omega)), encMag_of_subnormal (by omega) (by omega), hE,
      hmag]
    rfl

/-- Settles O18: the magnitude is 0; a zero or a subnormal has E = 0; and 2^24 is less than half of a step of 2^25 or more. -/
theorem encodeUnderflow : Obligations.EncodeUnderflow := by
  refine ⟨fun f s hE => ?_, fun f hclass => ?_, fun f hE => ?_⟩
  · rw [exec_encode_of_not_nan (isNan32_eq_false_of_exp32 (by omega)), encMag_of_underflow hE]
    rfl
  · obtain ⟨hzero, hsub, -⟩ := singleClassesByPattern f
    obtain h | h := hclass
    · have := (hzero.mp h).1
      omega
    · have := (hsub.mp h).1
      omega
  · have hM := (man32 f).isLt
    have hstep : 2 ^ 25 ≤ 2 ^ (126 - (exp32 f).toNat) := Nat.pow_le_pow_right (by decide) (by omega)
    refine Nat.eq_zero_of_not_pos ?_
    rw [lt_rneShift_iff (by omega)]
    omega

/-- Settles O20: inputs but a NaN keep their sign, and the NaNs' signs and mantissas are exactly the arguments NAN-E2 speaks
of. -/
theorem encodeKeepsTheSign : Obligations.EncodeKeepsTheSign := by
  refine ⟨fun f => ?_, fun map f hf => sign16_encodeF32 hf map, fun map => ⟨fun h s M hM => ?_, fun h f hf => ?_⟩⟩
  · cases hf : isNan32 f with
    | false => exact sign16_encodeF32 hf _
    | true => rw [encodeF32_of_nan hf, encNanDefault, sign16_pack16]
  · have hf : isNan32 (pack32 s 255 M) = true := (isNan32_iff _).mpr ⟨exp32_pack32 _ _ _, by rwa [man32_pack32]⟩
    have hsign := h _ hf
    rwa [encodeF32_of_nan hf, sign32_pack32, man32_pack32] at hsign
  · rw [encodeF32_of_nan hf]
    exact h _ _ ((isNan32_iff f).mp hf).2

/-- A pattern with exponent 31 and a mantissa kept off 0 is a NaN. -/
theorem pack16_nan_fields (s : BitVec 1) (m : BitVec 10) :
    exp16 (pack16 s 31 (if m = 0 then 1 else m)) = 31 ∧ man16 (pack16 s 31 (if m = 0 then 1 else m)) ≠ 0 := by
  rw [exp16_pack16, man16_pack16]
  refine ⟨rfl, ?_⟩
  split_ifs with hm
  · decide
  · exact hm

/-- Settles O12: the default map and `toNan16` keep the mantissa off 0; where M[22] is set the default keeps M[22:13],
whose top bit that is. -/
theorem encNanMapsMeetTheirConstraints : Obligations.EncNanMapsMeetTheirConstraints := by
  have hdefault : NanE1 encNanDefault := fun s M _ => pack16_nan_fields s _
  refine ⟨fun m => ?_, ⟨hdefault, fun s M _ => sign16_pack16 _ _ _, fun s M _ hquiet => ?_⟩, fun h hh => ?_⟩
  · cases m with
    | specDefault => exact hdefault
    | canonical => exact fun _ _ _ => show exp16 0x7E00 = 31 ∧ man16 0x7E00 ≠ 0 by decide
    | own => exact fun s M _ => pack16_nan_fields _ _
  · have htop : (M.extractLsb' 13 10).getLsbD 9 = true := by simpa using hquiet
    have hne : M.extractLsb' 13 10 ≠ 0 := by
      intro h
      simp [h] at htop
    rw [← getLsbD_man16 (by decide), encNanDefault, man16_pack16, if_neg hne, htop]
  · obtain ⟨hE, hM⟩ := (isNan_iff h).mp hh
    rw [toNan16, if_neg hM]
    exact hE ▸ pack16_fields h

/-- Settles O19: from the threshold of 65520 up the magnitude is infinity's, below it `isNearest16_encodeF32`. -/
theorem encodeRoundsTheValue : Obligations.EncodeRoundsTheValue := by
  intro map f hf
  have hs := sign16_encodeF32 hf map
  have hm := mag16_encodeF32 hf map
  refine ⟨fun v hv => ?_, fun b hb => ?_, hs⟩
  · obtain ⟨-, rfl⟩ := val32_eq_num hv
    unfold IsRne16
    split_ifs with hover
    · have hmag := (encMag_eq_inf_iff _).mpr ((le_abs_num32_iff_overflow f).mp hover)
      have hne : num32 f ≠ 0 := fun h => by norm_num [h] at hover
      rw [val16_eq, hm, hmag, if_neg (lt_irrefl _), if_pos rfl, hs, Bool.beq_eq_decide_eq,
        decide_eq_decide.mpr (num32_neg_iff hne)]
    · have hfin := mt ((encMag_eq_inf_iff _).trans (le_abs_num32_iff_overflow f).symm).mp hover
      have hle := encMag_le (mag32 f)
      exact isNearest16_encodeF32 hf (by omega) map
  · obtain ⟨hmag, rfl⟩ := val32_eq_inf hb
    rw [val16_eq, hm, hmag, hs]
    rfl

/-- Settles O21: ENCODE's magnitude is monotone, so each range follows from its two ends. -/
theorem encodeRangesAndMonotone : Obligations.EncodeRangesAndMonotone := by
  have hrange {lo hi a b m : Nat} (hlo : encMag lo = a) (hhi : encMag hi = b) (h : lo ≤ m) (h' : m ≤ hi) :
      a ≤ encMag m ∧ encMag m ≤ b :=
    ⟨hlo ▸ encMag_monotone h, hhi ▸ encMag_monotone h'⟩
  have hmag (map : EncNanFun) (f : Single) (h : mag32 f ≤ 0x7F800000) :
      (encodeF32 map f).toNat % 2 ^ 15 = encMag (f.toNat % 2 ^ 31) :=
    mag16_encodeF32 ((isNan32_eq_false_iff f).mpr h) map
  refine ⟨fun map f => ⟨fun h => ?_, fun h h' => ?_, fun h h' => ?_, fun h h' => ?_, fun h => ?_, fun h => ?_⟩,
    fun map f g _ hf hg h => ?_⟩
  · have hle := (hrange (a := 0) (b := 0) (by decide : encMag 0 = 0) (by decide) (Nat.zero_le _) h).2
    rw [hmag map f (h.trans (by decide))]
    exact Nat.eq_zero_of_le_zero hle
  · rw [hmag map f (h'.trans (by decide))]
    exact hrange (by decide) (by decide) h h'
  · rw [hmag map f (h'.trans (by decide))]
    exact hrange (by decide) (by decide) h h'
  · rw [hmag map f h']
    exact (encMag_eq_inf_iff _).mpr h
  · exact encodeF32_of_nan ((isNan32_eq_true_iff f).mpr h) map
  · exact sign16_encodeF32 ((isNan32_eq_false_iff f).mpr h) map
  · rw [hmag map f ((isNan32_eq_false_iff f).mp hf), hmag map g ((isNan32_eq_false_iff g).mp hg)]
    exact encMag_monotone h

/-- Settles O22: equal values of one sign are equal numbers, which ENCODE's magnitude keeps, or equal infinities; DECODE
keeps the number. -/
theorem encodeOfExactValues : Obligations.EncodeOfExactValues := by
  have hinf : encMag 0x7F800000 = 0x7C00 := by decide
  have hencode {f : Single} {h : Half} (map : EncNanFun) (hf : mag32 f ≤ 0x7F800000) (hs : sign32 f = sign16 h)
      (hm : encMag (mag32 f) = mag16 h) : encodeF32 map f = h := by
    have hf := (isNan32_eq_false_iff f).mpr hf
    exact half_ext ((sign16_encodeF32 hf map).trans hs) ((mag16_encodeF32 hf map).trans hm)
  refine ⟨fun map f h hval hh hs => ?_, fun map dmap h hh => ?_⟩
  · obtain ht | ht := ((isNan_eq_false_iff h).mp hh).lt_or_eq
    · rw [val16_eq, if_pos ht] at hval
      obtain ⟨hm, hnum⟩ := val32_eq_num hval
      exact hencode map hm.le hs (encMag_of_scaled_eq ht ((num32_eq_num16_iff hs).mp hnum.symm))
    · rw [val16_eq, if_neg ht.not_lt, if_pos ht] at hval
      obtain ⟨hm, -⟩ := val32_eq_inf hval
      exact hencode map hm.le hs (by rw [hm, hinf, ht])
  · obtain ⟨hs, hm⟩ := decodeF16_of_not_nan hh dmap
    obtain ht | ht := ((isNan_eq_false_iff h).mp hh).lt_or_eq
    · obtain ⟨hfin, heq⟩ := scaled_decMag ht
      exact hencode map (hm ▸ hfin.le) hs (hm ▸ encMag_of_scaled_eq ht heq)
    · rw [ht] at hm
      exact hencode map hm.le hs (by rw [hm, ht]; exact hinf)

/-- A range of non-negative patterns is a range of magnitudes under the sign 0. -/
theorem toNat_mem_range_iff {hi : Nat} (hhi : hi < 2 ^ 31) (lo : Nat) (f : Single) :
    (lo ≤ f.toNat ∧ f.toNat ≤ hi) ↔ sign32 f = 0 ∧ lo ≤ mag32 f ∧ mag32 f ≤ hi := by
  have hsign := (sign32 f).isLt
  have hsplit := toNat_eq_sign32_add_mag32 f
  have hzero : sign32 f = 0 ↔ (sign32 f).toNat = 0 := by rw [← BitVec.toNat_inj]; rfl
  rw [hzero]
  omega

/-- Settles O23: both ends of the range encode to 1.0 and their outer neighbours do not; as numbers the ends are those of the
statement. -/
theorem encodeToOne : Obligations.EncodeToOne := by
  refine ⟨fun map f hmap => ?_, fun f v hv => ?_, fun map => ?_⟩
  · rw [toNat_mem_range_iff (by decide)]
    cases hf : isNan32 f with
    | true =>
      have hmag := (isNan32_eq_true_iff f).mp hf
      refine iff_of_false (fun h => ?_) (by omega)
      have hexp := (hmap (sign32 f) (man32 f) ((isNan32_iff f).mp hf).2).1
      rw [← encodeF32_of_nan hf map, h] at hexp
      exact absurd hexp (by decide)
    | false =>
      rw [half_eq_iff, sign16_encodeF32 hf, mag16_encodeF32 hf]
      exact and_congr_right' (encMag_eq_iff (t := 0x3C00) (by decide) (by decide) (by decide) (by decide) _)
  · obtain ⟨-, rfl⟩ := val32_eq_num hv
    have hlo : (1 - 1 / 2 ^ 12 : ℚ) = scaled 23 0x3F7FF000 * 2 ^ (-149 : ℤ) := by
      rw [show scaled 23 0x3F7FF000 = 0xFFF000 * 2 ^ 125 by decide]
      norm_num
    have hhi : (1 + 1 / 2 ^ 11 : ℚ) = scaled 23 0x3F801000 * 2 ^ (-149 : ℤ) := by
      rw [show scaled 23 0x3F801000 = 0x801000 * 2 ^ 126 by decide]
      norm_num
    rw [toNat_mem_range_iff (by decide), ← scaled_mul_unit_le_iff, ← scaled_mul_unit_le_iff, ← hlo, ← hhi, ← abs_num32]
    obtain hs | hs := BitVec.eq_zero_or_eq_one (sign32 f)
    · rw [abs_of_nonneg (num32_nonneg hs)]
      exact and_iff_right hs
    · have hneg := num32_nonpos hs
      refine iff_of_false (fun h => ?_) (fun h => by norm_num at h; linarith [h.1])
      rw [hs] at h
      exact absurd h.1 (by decide)
  · rw [encodeF32_of_not_nan (by decide)]
    decide

end Sys2Proof.Machine
end

section
/-! PROOFS. The statements about DECODE (41_decode): one equation per case of R141 to R145, what the NaN maps' results are,
and the value and the class of every result; then the round trips with ENCODE. -/

namespace Sys2Proof.Machine

/-! ### The cases of DECODE -/

/-- What an evaluation of DECODE files (41_decode R140). -/
theorem exec_decode (h : Half) (s : State) :
    exec (.decode h) s = .next ((s.driveDec h).file (.single (decodeF16 (decNanOf s.params.dec) h))) :=
  exec_eq (.decode h) s

/-- A zero (41_decode R141). -/
theorem decodeF16_of_zero {h : Half} (hE : exp16 h = 0) (hM : man16 h = 0) (map : DecNanFun) :
    decodeF16 map h = pack32 (sign16 h) 0 0 := by
  simp [decodeF16, hE, hM]

theorem leadingOne_lt {h : Half} {p : Nat} (hlo : 2 ^ p ≤ (man16 h).toNat) : p < 10 :=
  (Nat.pow_lt_pow_iff_right (by decide)).mp (hlo.trans_lt (man16 h).isLt)

/-- A subnormal whose leading one is at bit `p`: reducing the shifted mantissa modulo 2^23 takes away exactly that one
(41_decode R142). -/
theorem decodeF16_of_subnormal {h : Half} {p : Nat} (hE : exp16 h = 0) (hlo : 2 ^ p ≤ (man16 h).toNat)
    (hhi : (man16 h).toNat < 2 ^ (p + 1)) (map : DecNanFun) :
    decodeF16 map h = pack32 (sign16 h) (BitVec.ofNat 8 (p + 103))
      (BitVec.ofNat 23 (((man16 h).toNat - 2 ^ p) * 2 ^ (23 - p))) := by
  have hM : (man16 h).toNat ≠ 0 := ((Nat.two_pow_pos p).trans_le hlo).ne'
  have hmsb : msbIndex (man16 h) = p := (Nat.log2_eq_iff hM).mpr ⟨hlo, hhi⟩
  have hone : 2 ^ p * 2 ^ (23 - p) = 2 ^ 23 := by
    have hp := leadingOne_lt hlo
    rw [← pow_add, Nat.add_sub_cancel' (by omega)]
  have hdrop : BitVec.ofNat 23 ((man16 h).toNat * 2 ^ (23 - p) % 2 ^ 23) =
      BitVec.ofNat 23 (((man16 h).toNat - 2 ^ p) * 2 ^ (23 - p)) := by
    rw [Nat.sub_mul, hone, ← BitVec.toNat_inj, BitVec.toNat_ofNat, BitVec.toNat_ofNat, Nat.mod_mod,
      Nat.mod_eq_sub_mod (hone ▸ Nat.mul_le_mul_right _ hlo)]
  rw [← hdrop]
  simp [decodeF16, hE, hM, hmsb]

/-- A normal (41_decode R143). -/
theorem decodeF16_of_normal {h : Half} (hlo : 1 ≤ (exp16 h).toNat) (hhi : (exp16 h).toNat ≤ 30) (map : DecNanFun) :
    decodeF16 map h = pack32 (sign16 h) (BitVec.ofNat 8 ((exp16 h).toNat + 112)) (man16 h ++ 0#13) := by
  simp only [decodeF16]
  rw [if_neg (by omega), if_neg (by omega), if_neg (by omega), if_neg (by omega)]

/-- An infinity (41_decode R144). -/
theorem decodeF16_of_infinity {h : Half} (hE : exp16 h = 31) (hM : man16 h = 0) (map : DecNanFun) :
    decodeF16 map h = pack32 (sign16 h) 0xFF 0 := by
  simp [decodeF16, hE, hM]

/-- A NaN goes through the parameter (41_decode R145). -/
theorem decodeF16_of_nan {h : Half} (hh : isNan h = true) (map : DecNanFun) :
    decodeF16 map h = map (sign16 h) (man16 h) := by
  obtain ⟨hE, hM⟩ := (isNan_iff h).mp hh
  have hM0 : (man16 h).toNat ≠ 0 := fun h0 => hM (BitVec.toNat_inj.mp h0)
  simp [decodeF16, hE, hM0]

/-! ### The NaN maps -/

/-- The fields of the default map's result (41_decode R146). -/
theorem decNanDefault_fields (s : BitVec 1) (M : BitVec 10) :
    sign32 (decNanDefault s M) = s ∧ exp32 (decNanDefault s M) = 255 ∧ man32 (decNanDefault s M) = M ++ 0#13 :=
  ⟨sign32_pack32 _ _ _, exp32_pack32 _ _ _, man32_pack32 _ _ _⟩

/-- The ten payload bits are the top ten of the default map's mantissa. -/
theorem payload_append_zeros (M : BitVec 10) : (M ++ 0#13).extractLsb' 13 10 = M :=
  BitVec.extractLsb'_append_eq_left

/-- A mantissa bit is the pattern's own bit. -/
theorem getLsbD_man32 {i : Nat} (hi : i < 23) (f : Single) : (man32 f).getLsbD i = f.getLsbD i := by
  simp [man32, hi]

theorem nanD1_decNanDefault : NanD1 decNanDefault := by
  intro s M hM
  obtain ⟨-, hE, hman⟩ := decNanDefault_fields s M
  refine ⟨hE, fun h => hM ?_⟩
  rw [← payload_append_zeros M, ← hman, h]
  rfl

/-- Setting bit 22 leaves the exponent all ones and makes the mantissa's top bit 1. -/
theorem nanD1_decNanForcedQuiet : NanD1 decNanForcedQuiet := by
  intro s M _
  obtain ⟨-, hE, -⟩ := decNanDefault_fields s M
  constructor
  · rw [decNanForcedQuiet, exp32, BitVec.extractLsb'_or, ← exp32, hE]
    rfl
  · intro h
    have hquiet : (man32 (decNanForcedQuiet s M)).getLsbD 22 = true := by
      rw [getLsbD_man32 (by decide)]
      simp [decNanForcedQuiet]
    simp [h] at hquiet

/-- `toNan32` keeps the exponent all ones and the mantissa off 0, whatever it is given (log entry 4). -/
theorem isNan32_toNan32 (f : Single) : isNan32 (toNan32 f) = true := by
  rw [isNan32_iff, toNan32, exp32_pack32, man32_pack32]
  refine ⟨rfl, ?_⟩
  split_ifs with hM
  · decide
  · exact hM

theorem nanD1_decNanOf (m : DecNanMap) : NanD1 (decNanOf m) := by
  cases m with
  | specDefault => exact nanD1_decNanDefault
  | forcedQuiet => exact nanD1_decNanForcedQuiet
  | own => exact fun s M _ => (isNan32_iff _).mp (isNan32_toNan32 _)

/-- A map that meets NAN-D1 makes DECODE of a NaN a NaN (41_decode R147). -/
theorem isNan32_decodeF16 {map : DecNanFun} (hmap : NanD1 map) {h : Half} (hh : isNan h = true) :
    isNan32 (decodeF16 map h) = true := by
  rw [decodeF16_of_nan hh, isNan32_iff]
  exact hmap _ _ ((isNan_iff h).mp hh).2

/-! ### Values and classes -/

/-- DECODE keeps the value: the number of a finite magnitude, or infinity (41_decode R148). -/
theorem val32_decodeF16 {h : Half} (hh : isNan h = false) (map : DecNanFun) :
    val32 (decodeF16 map h) = val16 h := by
  obtain ⟨hs, hm⟩ := decodeF16_of_not_nan hh map
  rw [val32_eq, val16_eq]
  obtain ht | ht := ((isNan_eq_false_iff h).mp hh).lt_or_eq
  · obtain ⟨hfin, hnum⟩ := scaled_decMag ht
    rw [if_pos (hm ▸ hfin), if_pos ht, (num32_eq_num16_iff hs).mpr (hm ▸ hnum)]
  · rw [hm, hs, ht]
    rfl

/-- The exponent of a decoded subnormal magnitude (41_decode R149). -/
theorem decMag_div_of_subnormal {t : Nat} (hpos : 0 < t) (ht : t < 2 ^ 10) :
    103 ≤ decMag t / 2 ^ 23 ∧ decMag t / 2 ^ 23 ≤ 112 := by
  have hlog : t.log2 < 10 := (Nat.log2_lt hpos.ne').mpr ht
  rw [decMag, if_neg hpos.ne', if_pos ht]
  omega

/-- The exponent of a decoded normal magnitude (41_decode R149). -/
theorem decMag_div_of_normal {t : Nat} (hlo : 2 ^ 10 ≤ t) (ht : t < 0x7C00) :
    decMag t / 2 ^ 23 = t / 2 ^ 10 + 112 := by
  rw [decMag, if_neg (by omega), if_neg (by omega), if_neg (by omega)]
  omega

/-- No decoded magnitude is that of a binary32 subnormal (41_decode R149). -/
theorem decMag_eq_zero_or_ge (t : Nat) : decMag t = 0 ∨ 2 ^ 23 ≤ decMag t := by
  unfold decMag
  split_ifs <;> omega

/-! ### The obligations -/

/-- Settles O24: the case of R141, at both zeros too. -/
theorem decodeOfZero : Obligations.DecodeOfZero := by
  have hzero (h : Half) (s : State) (hE : exp16 h = 0) (hM : man16 h = 0) :
      exec (.decode h) s = .next ((s.driveDec h).file (.single (sign16 h ++ 0x00#8 ++ 0#23))) := by
    rw [exec_decode, decodeF16_of_zero hE hM]
    rfl
  exact ⟨hzero, fun s => hzero 0x0000 s (by decide) (by decide), fun s => hzero 0x8000 s (by decide) (by decide)⟩

/-- Settles O25: the pattern is DECODE's result, so its value is that of `h`. -/
theorem decodeOfSubnormal : Obligations.DecodeOfSubnormal := by
  intro h p s hE hlo hhi
  have hh : isNan h = false := by simp [isNan, hE]
  have hdecode := decodeF16_of_subnormal hE hlo hhi (decNanOf s.params.dec)
  have hvalue := val32_decodeF16 hh (decNanOf s.params.dec)
  rw [hdecode] at hvalue
  refine ⟨Nat.le_of_lt_succ (leadingOne_lt hlo), ?_, hvalue.trans ?_⟩
  · rw [exec_decode, hdecode]
    rfl
  · rw [val16, if_neg (by rw [hE]; decide), num16, if_pos hE, zpow_neg, ← div_eq_mul_inv]
    rfl

/-- Settles O26: the case of R143. -/
theorem decodeOfNormal : Obligations.DecodeOfNormal := by
  intro h s hlo hhi
  rw [exec_decode, decodeF16_of_normal hlo hhi]
  rfl

/-- Settles O27: the case of R144, at both infinities too. -/
theorem decodeOfInfinity : Obligations.DecodeOfInfinity := by
  have hinf (h : Half) (s : State) (hE : exp16 h = 31) (hM : man16 h = 0) :
      exec (.decode h) s = .next ((s.driveDec h).file (.single (sign16 h ++ 0xFF#8 ++ 0#23))) := by
    rw [exec_decode, decodeF16_of_infinity hE hM]
    rfl
  exact ⟨hinf, fun s => hinf 0x7C00 s (by decide) (by decide), fun s => hinf 0xFC00 s (by decide) (by decide)⟩

/-- Settles O28: a NaN goes through the state's map, and the default is the statement's concatenation. -/
theorem decodeOfNan : Obligations.DecodeOfNan := by
  intro h s hE hM
  have hexec := exec_decode h s
  rw [decodeF16_of_nan ((isNan_iff h).mpr ⟨hE, hM⟩)] at hexec
  refine ⟨hexec, fun hdefault => ?_⟩
  rw [hexec, hdefault]
  rfl

/-- Settles O29: the default keeps all ten payload bits, of which M[9] lands at bit 22; `toNan32` writes a NaN's own
fields back. -/
theorem decNanMapsMeetTheirConstraints : Obligations.DecNanMapsMeetTheirConstraints := by
  refine ⟨nanD1_decNanOf, ⟨nanD1_decNanDefault, fun s M _ => (decNanDefault_fields s M).1, fun s M _ => ?_⟩,
    fun f hf => ?_⟩
  · obtain ⟨-, -, hman⟩ := decNanDefault_fields s M
    rw [← getLsbD_man32 (by decide), hman, BitVec.getLsbD_append]
    rfl
  · obtain ⟨hE, hM⟩ := (isNan32_iff f).mp hf
    obtain ⟨-, -, hpack, -⟩ := fieldsLieWhereTheFormatsSay
    rw [toNan32, if_neg hM]
    exact hE ▸ hpack f

/-- Settles O30: `val32_decodeF16`, and the sign is kept beside the magnitude. -/
theorem decodeIsExact : Obligations.DecodeIsExact :=
  fun map _ hh => ⟨val32_decodeF16 hh map, (decodeF16_of_not_nan hh map).1⟩

/-- Settles O31: a class is a range of magnitudes in either format, and DECODE takes each range to one of its class. -/
theorem decodeClasses : Obligations.DecodeClasses := by
  intro map h hmap
  obtain ⟨hclass16, -⟩ := halfClassesByPattern
  obtain ⟨-, -, -, -, -, -, hzero16, hsub16, hnormal16, hinf16, -⟩ := hclass16 h
  obtain ⟨-, -, -, -, -, -, hzero32, hsub32, hnormal32, hinf32, -⟩ := singleClassesByPattern (decodeF16 map h)
  rw [← mag16] at hzero16 hsub16 hnormal16 hinf16
  rw [← mag32] at hzero32 hsub32 hnormal32 hinf32
  have hmag (ht : mag16 h ≤ 0x7C00) : mag32 (decodeF16 map h) = decMag (mag16 h) :=
    (decodeF16_of_not_nan ((isNan_eq_false_iff h).mpr ht) map).2
  rw [hzero16, hsub16, hnormal16, hinf16, hzero32, hnormal32, hinf32, ne_eq, hsub32, exp32_toNat]
  refine ⟨fun ht => ?_, fun ht => ?_, fun ht => ?_, fun ht => ?_, isNan32_decodeF16 hmap, fun hm => ?_⟩
  · rw [hmag (by omega), ht]
    rfl
  · rw [hmag (by omega)]
    have hdiv := decMag_div_of_subnormal (t := mag16 h) (by omega) (by omega)
    omega
  · rw [hmag (by omega)]
    have hdiv := decMag_div_of_normal (t := mag16 h) (by omega) (by omega)
    omega
  · rw [hmag (by omega), ht]
    rfl
  · cases hh : isNan h with
    | false =>
      rw [hmag ((isNan_eq_false_iff h).mp hh)] at hm
      have hgap := decMag_eq_zero_or_ge (mag16 h)
      omega
    | true =>
      have hnan := (isNan32_eq_true_iff _).mp (isNan32_decodeF16 hmap hh)
      omega

/-- Settles O32: ENCODE of a decoded number is exact by `encodeOfExactValues`; a NaN goes through both maps, and the
default encoder map takes back the ten payload bits that the default decoder map placed at the top. -/
theorem encodeOfDecodeIsThePattern : Obligations.EncodeOfDecodeIsThePattern := by
  obtain ⟨-, hexact⟩ := encodeOfExactValues
  refine ⟨fun h => ?_, hexact, fun emap dmap h hE1 hD1 hh => ?_⟩
  · cases hh : isNan h with
    | false => exact hexact _ _ h hh
    | true =>
      obtain ⟨hE, hM⟩ := (isNan_iff h).mp hh
      obtain ⟨hsign, -, hman⟩ := decNanDefault_fields (sign16 h) (man16 h)
      rw [encodeF32_of_nan (isNan32_decodeF16 nanD1_decNanDefault hh), decodeF16_of_nan hh, hsign, hman, encNanDefault,
        payload_append_zeros, if_neg hM]
      exact hE ▸ pack16_fields h
  · have hnan := isNan32_decodeF16 hD1 hh
    rw [encodeF32_of_nan hnan, isNan_iff]
    exact hE1 _ _ ((isNan32_iff _).mp hnan).2

/-- Settles O33: ENCODE takes a decoded pattern back (O32), so DECODE sees the same pattern again. -/
theorem decodeOfEncodeIsThePattern : Obligations.DecodeOfEncodeIsThePattern := by
  rintro emap dmap f ⟨h, hh, rfl⟩
  obtain ⟨-, hencode, -⟩ := encodeOfDecodeIsThePattern
  rw [hencode emap dmap h hh]

end Sys2Proof.Machine
end

section
/-! PROOFS. The statements about CLASSIFY (42_classify): each bit by the fields (R171 to R176), by the magnitudes and by
the class of the pattern. That c[0] to c[4] are one-hot, blind to the sign and agree with DECODE follows from these. -/

namespace Sys2Proof.Machine

/-! ### The bits of c -/

/-- Each bit of a packed vector is the Boolean packed there (30_encoding R70). -/
theorem getLsbD_packClass (zero subnormal normal infinite nan negZero : Bool) :
    (packClass zero subnormal normal infinite nan negZero).getLsbD 0 = zero ∧
    (packClass zero subnormal normal infinite nan negZero).getLsbD 1 = subnormal ∧
    (packClass zero subnormal normal infinite nan negZero).getLsbD 2 = normal ∧
    (packClass zero subnormal normal infinite nan negZero).getLsbD 3 = infinite ∧
    (packClass zero subnormal normal infinite nan negZero).getLsbD 4 = nan ∧
    (packClass zero subnormal normal infinite nan negZero).getLsbD 5 = negZero := by
  simp only [packClass, BitVec.getLsbD_append]
  simp

/-- The condition on the fields under which each bit is set (42_classify R171 to R176). -/
theorem classifyF16_iff_fields (h : Half) :
    ((classifyF16 h).getLsbD 0 = true ↔ exp16 h = 0 ∧ man16 h = 0) ∧
    ((classifyF16 h).getLsbD 1 = true ↔ exp16 h = 0 ∧ man16 h ≠ 0) ∧
    ((classifyF16 h).getLsbD 2 = true ↔ 1 ≤ (exp16 h).toNat ∧ (exp16 h).toNat ≤ 30) ∧
    ((classifyF16 h).getLsbD 3 = true ↔ exp16 h = 31 ∧ man16 h = 0) ∧
    ((classifyF16 h).getLsbD 4 = true ↔ exp16 h = 31 ∧ man16 h ≠ 0) ∧
    ((classifyF16 h).getLsbD 5 = true ↔ h = 0x8000) := by
  obtain ⟨hzero, hsub, hnormal, hinf, hnan, hneg⟩ :=
    getLsbD_packClass (isZero h) (isSubnormal h) (isNormal h) (isInfinite h) (isNan h) (isNegZero h)
  have hE := (exp16 h).isLt
  rw [classifyF16, hzero, hsub, hnormal, hinf, hnan, hneg]
  refine ⟨by simp [isZero], by simp [isSubnormal], ?_, by simp [isInfinite], isNan_iff h, by simp [isNegZero]⟩
  rw [isNormal, Bool.and_eq_true, bne_iff_ne, bne_iff_ne]
  bv_omega

/-- The first and the last magnitude of the patterns that set bit `i` of c, for the five bits that ignore the sign
(42_classify R171 to R175). -/
def classBitRange : Nat → Nat × Nat
  | 0 => (0, 0)
  | 1 => (0x0001, 0x03FF)
  | 2 => (0x0400, 0x7BFF)
  | 3 => (0x7C00, 0x7C00)
  | _ => (0x7C01, 0x7FFF)

/-- Each of c[0] to c[4] stands for a range of magnitudes. -/
theorem classifyF16_iff_range {i : Nat} (hi : i < 5) (h : Half) :
    (classifyF16 h).getLsbD i = true ↔ (classBitRange i).1 ≤ mag16 h ∧ mag16 h ≤ (classBitRange i).2 := by
  obtain ⟨hzero, hsub, hnormal, hinf, hnan, -⟩ := classifyF16_iff_fields h
  have hlt := mag16_lt h
  rw [ne_eq, exp16_eq_zero_iff, man16_eq_zero_iff] at hsub
  rw [exp16_eq_zero_iff, man16_eq_zero_iff] at hzero
  rw [exp16_toNat] at hnormal
  rw [exp16_eq_31_iff, man16_eq_zero_iff] at hinf
  rw [ne_eq, exp16_eq_31_iff, man16_eq_zero_iff] at hnan
  interval_cases i
  · exact hzero.trans (by simp only [classBitRange]; omega)
  · exact hsub.trans (by simp only [classBitRange]; omega)
  · exact hnormal.trans (by simp only [classBitRange]; omega)
  · exact hinf.trans (by simp only [classBitRange]; omega)
  · exact hnan.trans (by simp only [classBitRange]; omega)

/-- The bit of c that stands for a class; the two kinds of NaN share c[4] (42_classify R175). -/
def bitOfClass : FpClass → Nat
  | .zero => 0
  | .subnormal => 1
  | .normal => 2
  | .infinity => 3
  | .quietNan | .signallingNan => 4

/-- Of c[0] to c[4], the bit of the pattern's class is set and no other. -/
theorem classifyF16_iff_class {i : Nat} (hi : i < 5) (h : Half) :
    (classifyF16 h).getLsbD i = true ↔ bitOfClass (class16 h) = i := by
  have hrange := (class16_eq_iff_range h (class16 h)).mp rfl
  rw [← mag16] at hrange
  rw [classifyF16_iff_range hi]
  cases hc : class16 h
  all_goals
    simp only [hc, magnitudeRange16] at hrange
    interval_cases i
    all_goals
      simp only [classBitRange, bitOfClass, reduceCtorEq, iff_true, iff_false]
      omega

/-- Flipping the sign keeps the magnitude. -/
theorem mag16_xor_sign (h : Half) : mag16 (h ^^^ 0x8000) = mag16 h := by
  rw [mag16, mag16, BitVec.toNat_xor, Nat.xor_mod_two_pow]
  exact Nat.xor_zero _

/-- A binary16 NaN is a pattern of the class that c[4] stands for (42_classify R175). -/
theorem isNan_iff_class16 (h : Half) : isNan h = true ↔ bitOfClass (class16 h) = 4 := by
  obtain ⟨-, -, -, -, hbit, -⟩ := classifyF16_iff_fields h
  rw [isNan_iff, ← hbit, classifyF16_iff_class (by decide)]

/-- A binary32 NaN is quiet or signalling (30_encoding R62). -/
theorem isNan32_iff_class32 (f : Single) :
    isNan32 f = true ↔ class32 f = .quietNan ∨ class32 f = .signallingNan := by
  obtain ⟨-, -, -, -, -, -, -, -, -, -, hquiet, hsnan⟩ := singleClassesByPattern f
  rw [isNan32_eq_true_iff, mag32, hquiet, hsnan]
  omega

/-! ### How many patterns set each bit -/

/-- How many patterns set each of c[0] to c[4]: its range's many, once for each sign. -/
theorem countP_classifyF16 {i : Nat} (hi : i < 5) :
    ((List.range 65536).countP fun n => (classifyF16 (BitVec.ofNat 16 n)).getLsbD i) =
      2 * ((classBitRange i).2 + 1 - (classBitRange i).1) := by
  have hhi : (classBitRange i).2 < 2 ^ 15 := by interval_cases i <;> decide
  rw [← count_mod_interval hhi, Nat.count]
  refine List.countP_congr fun n hn => ?_
  have hlt : n < 2 ^ 16 := List.mem_range.mp hn
  rw [classifyF16_iff_range hi, mag16, BitVec.toNat_ofNat, Nat.mod_eq_of_lt hlt, decide_eq_true_iff]

/-- Only 0x8000 sets c[5]. -/
theorem countP_classifyF16_negZero :
    ((List.range 65536).countP fun n => (classifyF16 (BitVec.ofNat 16 n)).getLsbD 5) = 1 := by
  rw [← List.count_eq_one_of_mem List.nodup_range (List.mem_range.mpr (show 0x8000 < 65536 by decide)), List.count]
  refine List.countP_congr fun n hn => ?_
  obtain ⟨-, -, -, -, -, hneg⟩ := classifyF16_iff_fields (BitVec.ofNat 16 n)
  have hlt : n < 2 ^ 16 := List.mem_range.mp hn
  rw [hneg, beq_iff_eq, ← BitVec.toNat_inj, BitVec.toNat_ofNat, Nat.mod_eq_of_lt hlt]
  rfl

/-! ### The obligations -/

/-- Settles O34: the fields by `classifyF16_iff_fields`, the patterns by the magnitudes of `classBitRange`, which both
signs share. -/
theorem classifyBits : Obligations.ClassifyBits := by
  intro h s
  obtain ⟨hzero, hsub, hnormal, hinf, hnan, hneg⟩ := classifyF16_iff_fields h
  have hrange {i : Nat} (hi : i < 5) := classifyF16_iff_range hi h
  have hlt := h.isLt
  refine ⟨classifyF16 h, exec_eq (.classify h) s, hzero, (hrange (by decide)).trans ?_,
    hsub, (hrange (by decide)).trans ?_, hnormal, (hrange (by decide)).trans ?_,
    hinf, (hrange (by decide)).trans ?_, hnan, (hrange (by decide)).trans ?_, hneg⟩
  all_goals
    simp only [classBitRange, mag16]
    bv_omega

/-- Settles O35: the one bit of the five is that of the pattern's class; -0 has both fields 0. -/
theorem classifyIsOneHot : Obligations.ClassifyIsOneHot := by
  refine ⟨fun h => ⟨?_, fun hneg => ?_⟩, countP_classifyF16 (by decide), countP_classifyF16 (by decide),
    countP_classifyF16 (by decide), countP_classifyF16 (by decide), countP_classifyF16 (by decide),
    countP_classifyF16_negZero⟩
  · have hone : (List.range 5).countP (fun i => bitOfClass (class16 h) = i) = 1 := by cases class16 h <;> rfl
    rw [← hone]
    refine List.countP_congr fun i hi => ?_
    rw [classifyF16_iff_class (List.mem_range.mp hi), decide_eq_true_iff]
  · obtain ⟨-, -, -, -, -, h5⟩ := classifyF16_iff_fields h
    rw [h5.mp hneg]
    decide

/-- Settles O36: each of the five bits reads the magnitude only. -/
theorem classifyIgnoresTheSign : Obligations.ClassifyIgnoresTheSign := by
  refine fun h => BitVec.eq_of_getLsbD_eq fun i hi => ?_
  have hbit : (classifyF16 h).getLsbD i = (classifyF16 (h ^^^ 0x8000)).getLsbD i := by
    rw [Bool.eq_iff_iff, classifyF16_iff_range hi, classifyF16_iff_range hi, mag16_xor_sign]
  rw [BitVec.getLsbD_extractLsb', BitVec.getLsbD_extractLsb', Nat.zero_add, hbit]

/-- Settles O37: in each class of `h`, the bits set are `classifyF16_iff_class`, and the class of DECODE's result is
R149's (O31). -/
theorem classifyAgreesWithDecode : Obligations.ClassifyAgreesWithDecode := by
  refine ⟨fun map h hmap => ?_, fun h s p => exec_eq (.classify h) { s with params := p }⟩
  obtain ⟨hzero, hsub, hnormal, hinf, hnan, -⟩ := decodeClasses map h hmap
  rw [isNan_iff_class16, isNan32_iff_class32] at hnan
  simp only [classifyF16_iff_class, Nat.reduceLT, isNan32_iff_class32]
  cases hc : class16 h with
  | zero => simp [bitOfClass, hzero hc]
  | subnormal => simp [bitOfClass, (hsub hc).1]
  | normal => simp [bitOfClass, (hnormal hc).1]
  | infinity => simp [bitOfClass, hinf hc]
  | quietNan | signallingNan =>
    obtain h32 | h32 := hnan (by rw [hc]; rfl) <;> simp [bitOfClass, h32]

end Sys2Proof.Machine
end

section
/-! PROOFS. Exceptions (60_exceptions): an evaluation always answers a next state (`exec_eq`), so a step does too, or it is
the refusal of a line that does not resolve; of raw requests, those are the ones the decoder refuses. -/

namespace Sys2Proof.Machine

/-- Every step answers a next state or a refusal. That `Fault` has no constructor is not used. -/
theorem step_next_or_refused (s : State) : (∃ t, step s = .next t) ∨ ∃ r, step s = .refused r := by
  cases hp : s.program with
  | nil => exact .inl ⟨s, step_of_program_nil hp⟩
  | cons l rest =>
    cases hr : s.resolve l with
    | error r => exact .inr ⟨r, step_eq_refused hp hr⟩
    | ok request => exact .inl ⟨_, (step_eq_exec hp hr).trans (exec_eq _ _)⟩

/-- The step of a raw request that the decoder refuses, under an accepted label, is that refusal (30_encoding R71). -/
theorem step_request_refused {s : State} {label : Label} {bits : List Bool} {rest : List Line} {e : DecodeError}
    (hp : s.program = { label := label, op := .request bits } :: rest) (hl : s.acceptsLabel label = true)
    (he : decodeRequest bits = .error e) : step s = .refused (.noRequest e) :=
  step_eq_refused hp (by rw [resolve_of_acceptsLabel hl, State.resolveOp, he])

/-- Settles O44: the decoder refuses op 0b11 by its first two bits (R71), and answers `i` on the encoder's bits (O6), on
which the evaluation completes. -/
theorem onlyTheReservedOpIsRefused : Obligations.OnlyTheReservedOpIsRefused :=
  ⟨fun _ _ _ _ hp hl => step_request_refused hp hl rfl,
    fun _ _ _ _ hp hl => ⟨_, (step_request hp hl (decodeRequest_eq_ok_iff.mpr rfl)).trans (exec_eq _ _)⟩⟩

/-- Settles O43: an evaluation is `exec_eq`'s next state, and a step is a next state or a refusal. -/
theorem nothingRaises : Obligations.NothingRaises := by
  refine ⟨fun i s => ⟨_, exec_eq i s⟩, fun s e hfault => ?_⟩
  obtain ⟨t, ht⟩ | ⟨r, hr⟩ := step_next_or_refused s
  · cases ht.symm.trans hfault
  · cases hr.symm.trans hfault

end Sys2Proof.Machine
end

section
/-! PROOFS. Initialisation (70_reset_and_hazards): the NaN maps are fixed by the implementation and never set by a run. -/

namespace Sys2Proof.Machine

/-- An evaluation keeps the NaN maps: it drives an input and files a result (`exec_eq`). -/
theorem exec_keeps_params {i : Instr} {s t : State} (h : exec i s = .next t) : t.params = s.params := by
  simp [eq_of_exec_eq_next h]

/-- Settles O50: a step with no line left changes nothing; any other begins the line, which keeps the NaN maps, and
evaluates its request, which keeps them too. -/
theorem stepKeepsTheParameters : Obligations.StepKeepsTheParameters := by
  intro s t hstep
  obtain ⟨-, rfl⟩ | ⟨l, rest, i, select, -, -, hexec⟩ := step_next_cases hstep
  · rfl
  · calc t.params = (s.beginLine l.label select rest).params := exec_keeps_params hexec
      _ = s.params := State.beginLine_params s l.label select rest

end Sys2Proof.Machine
end

section
/-! PROOFS. The two sample NaN maps of 95_test_vectors 2.5: one answers the same positive quiet NaN whatever it is given,
so it keeps no sign; the other makes every NaN quiet, so it keeps no signalling NaN. -/

namespace Sys2Proof.Machine

/-- The canonical map's one pattern is positive, so a negative NaN loses its sign. -/
theorem not_nanE2_encNanCanonical : ¬ NanE2 encNanCanonical :=
  fun h => absurd (h 1 1 (by decide)) (by decide)

/-- Setting bit 22 leaves the default map's sign. -/
theorem nanD2_decNanForcedQuiet : NanD2 decNanForcedQuiet := by
  intro s M _
  obtain ⟨hsign, -, -⟩ := decNanDefault_fields s M
  calc sign32 (decNanForcedQuiet s M)
    _ = sign32 (decNanDefault s M) ||| sign32 0x00400000 := BitVec.extractLsb'_or
    _ = s := by rw [hsign]; exact BitVec.or_zero

/-- The payload 1 is a signalling NaN's, and the forced-quiet map gives it a quiet one. -/
theorem not_nanD3_decNanForcedQuiet : ¬ NanD3 decNanForcedQuiet :=
  fun h => absurd (h 0 1 (by decide)) (by decide)

/-- What `dec_f32_out` shows after DECODE of `h` (10_state R29). -/
theorem decF32Out_of_exec_decode {h : Half} {s t : State} (ht : exec (.decode h) s = .next t) :
    t.decF32Out = some (decodeF16 (decNanOf s.params.dec) h) := by
  rw [exec_decode] at ht
  cases ht
  rfl

/-- Settles O58: the musts are those of O12 and of `nanD1_decNanForcedQuiet`. 0x7DFF decodes to a NaN, which the canonical
map of a state whose parameters the first evaluation kept files as 0x7E00. -/
theorem sampleNanMapsMeetAsListed : Obligations.SampleNanMapsMeetAsListed := by
  obtain ⟨hmust, -⟩ := encNanMapsMeetTheirConstraints
  refine ⟨⟨hmust .canonical, fun _ _ _ _ => by rw [encNanCanonical]; decide, not_nanE2_encNanCanonical⟩,
    ⟨nanD1_decNanForcedQuiet, nanD2_decNanForcedQuiet, not_nanD3_decNanForcedQuiet⟩,
    fun s henc hdec t ht => ⟨?_, ?_⟩⟩
  · rw [decF32Out_of_exec_decode ht, hdec, decodeF16_of_nan (by decide)]
    decide
  · rw [exec_encode_of_nan (by decide), exec_keeps_params ht, henc]
    rfl

end Sys2Proof.Machine
end
